-- ==== Sys2Proof/Word.lean ====
section
/-! DEFINITION. The word types of the core, each with the width the spec gives it (R8, R13, R52). -/

namespace Sys2Proof

/-- One pulse duration in microseconds, `TW = 16` bits unsigned (R8). -/
abbrev Duration := BitVec 16

/-- One command word, 20 bits (R52). -/
abbrev CmdWord := BitVec 20

/-- The `opcode` field of a command word, bits 19:16 (R52). -/
abbrev Opcode := BitVec 4

/-- The `operand` field of a command word, bits 15:0 (R52). -/
abbrev Operand := BitVec 16

/-- An index into the timing buffer or a count of its entries, 7 bits, 0 to 64 (R19, R20, R53). -/
abbrev Index := BitVec 7

/-- The register file `BA`: cell `k` is bit `k`, 47 cells (R14). -/
abbrev BitArray := BitVec 47

/-- The accumulator `PV` (R16). -/
abbrev PacketValue := BitVec 64

/-- A response value (R56). -/
abbrev RspData := BitVec 64

/-- A checksum nibble: mask, accumulator or transmitted value, `CK_W = 4` bits (R8, R94). -/
abbrev Nibble := BitVec 4

/-- The 36 reordered payload cells the checksum runs over (R93). -/
abbrev Reordered := BitVec 36

end Sys2Proof
end

