-- ==== Sys2Proof/Syntax.lean ====
section
/-! DEFINITION. The commands: one constructor per row of spec/opcode_table.json (R54, R55). Every command has the one
format of R52, so every constructor carries the whole 16-bit operand field, also where the command ignores it (R53). -/

namespace Sys2Proof

/-- A command of the core (R54). -/
inductive Instr where
  /-- NOP, opcode 0x0 (R128). -/
  | nop (operand : Operand)
  /-- DECODE, opcode 0x1 (R121): operand bits 6:0 are `n`, bits 15:7 must be zero. -/
  | decode (operand : Operand)
  /-- GET_ID, opcode 0x2 (R103). -/
  | getId (operand : Operand)
  /-- GET_BATTERY, opcode 0x3 (R104). -/
  | getBattery (operand : Operand)
  /-- GET_CHANNEL, opcode 0x4 (R105). -/
  | getChannel (operand : Operand)
  /-- GET_TEMPERATURE, opcode 0x5 (R106). -/
  | getTemperature (operand : Operand)
  /-- GET_HUMIDITY, opcode 0x6 (R109). -/
  | getHumidity (operand : Operand)
  /-- GET_STATUS, opcode 0x7 (R115). -/
  | getStatus (operand : Operand)
  /-- GET_PACKET, opcode 0x8 (R86). -/
  | getPacket (operand : Operand)
  /-- GET_BITS, opcode 0x9 (R87). -/
  | getBits (operand : Operand)
  /-- CLASSIFY, opcode 0xA (R62): the operand is the duration `d`. -/
  | classify (d : Duration)
  /-- CHKSUM, opcode 0xB (R92). -/
  | chksum (operand : Operand)
  /-- Reserved opcode 0xC (R55). -/
  | reservedC (operand : Operand)
  /-- Reserved opcode 0xD (R55). -/
  | reservedD (operand : Operand)
  /-- Reserved opcode 0xE (R55). -/
  | reservedE (operand : Operand)
  /-- Reserved opcode 0xF (R55). -/
  | reservedF (operand : Operand)
  deriving DecidableEq, Repr

/-- The opcode field of a command (R54). -/
def Instr.opcode : Instr → Opcode
  | .nop _ => 0x0#4
  | .decode _ => 0x1#4
  | .getId _ => 0x2#4
  | .getBattery _ => 0x3#4
  | .getChannel _ => 0x4#4
  | .getTemperature _ => 0x5#4
  | .getHumidity _ => 0x6#4
  | .getStatus _ => 0x7#4
  | .getPacket _ => 0x8#4
  | .getBits _ => 0x9#4
  | .classify _ => 0xA#4
  | .chksum _ => 0xB#4
  | .reservedC _ => 0xC#4
  | .reservedD _ => 0xD#4
  | .reservedE _ => 0xE#4
  | .reservedF _ => 0xF#4

/-- The operand field of a command (R52). -/
def Instr.operand : Instr → Operand
  | .nop x => x
  | .decode x => x
  | .getId x => x
  | .getBattery x => x
  | .getChannel x => x
  | .getTemperature x => x
  | .getHumidity x => x
  | .getStatus x => x
  | .getPacket x => x
  | .getBits x => x
  | .classify x => x
  | .chksum x => x
  | .reservedC x => x
  | .reservedD x => x
  | .reservedE x => x
  | .reservedF x => x

/-- The mnemonic of a command, as spec/opcode_table.json spells it. -/
def Instr.mnemonic : Instr → String
  | .nop _ => "NOP"
  | .decode _ => "DECODE"
  | .getId _ => "GET_ID"
  | .getBattery _ => "GET_BATTERY"
  | .getChannel _ => "GET_CHANNEL"
  | .getTemperature _ => "GET_TEMPERATURE"
  | .getHumidity _ => "GET_HUMIDITY"
  | .getStatus _ => "GET_STATUS"
  | .getPacket _ => "GET_PACKET"
  | .getBits _ => "GET_BITS"
  | .classify _ => "CLASSIFY"
  | .chksum _ => "CHKSUM"
  | .reservedC _ => "RESERVED_C"
  | .reservedD _ => "RESERVED_D"
  | .reservedE _ => "RESERVED_E"
  | .reservedF _ => "RESERVED_F"

end Sys2Proof
end

