-- ==== Sys2Proof/WellFormed.lean ====
section
/-! DEFINITION. Well-formed commands: the legal ones. An ill-formed command is exactly one R55 calls illegal (a reserved
opcode, or a malformed DECODE); it still decodes, and runs to the illegal response. -/

namespace Sys2Proof

/-- Check 1 (R53, R122): bits 15:7 of a DECODE operand are zero. -/
def decodeHighBitsZero (operand : Operand) : Bool :=
  operand.toNat / 128 == 0

/-- Check 2 (R53, R122): the length bound `n`, bits 6:0 of a DECODE operand, is at most 64. -/
def decodeLengthInRange (operand : Operand) : Bool :=
  decide (operand.toNat % 128 ≤ 64)

/-- A command is well-formed when R55 does not call it illegal. Check 3: its opcode is not reserved. -/
def Instr.wellFormed : Instr → Bool
  | .decode x => decodeHighBitsZero x && decodeLengthInRange x
  | .reservedC _ => false
  | .reservedD _ => false
  | .reservedE _ => false
  | .reservedF _ => false
  | .nop _ => true
  | .getId _ => true
  | .getBattery _ => true
  | .getChannel _ => true
  | .getTemperature _ => true
  | .getHumidity _ => true
  | .getStatus _ => true
  | .getPacket _ => true
  | .getBits _ => true
  | .classify _ => true
  | .chksum _ => true

end Sys2Proof
end

