-- ==== Sys2Proof/Decode.lean ====
section
/-! DEFINITION. The command word (R52 to R58): its fields, the total decoder, the opcode map as a table of patterns and
masks (R54, spec/opcode_table.json), the encoder written from the same map, and the host's view of the decoder. -/

namespace Sys2Proof

/-- Bits 19:16 of a command word (R52). -/
def opcodeOf (w : CmdWord) : Opcode := w.extractLsb' 16 4

/-- Bits 15:0 of a command word (R52). -/
def operandOf (w : CmdWord) : Operand := w.extractLsb' 0 16

/-- The 4-to-16 decoder of the opcode map (R54, R55), most significant opcode bit first. All sixteen opcodes stand here:
none falls through to a neighbour. -/
def ofFields (op : Opcode) (x : Operand) : Instr :=
  match op.getLsbD 3, op.getLsbD 2, op.getLsbD 1, op.getLsbD 0 with
  | false, false, false, false => .nop x
  | false, false, false, true => .decode x
  | false, false, true, false => .getId x
  | false, false, true, true => .getBattery x
  | false, true, false, false => .getChannel x
  | false, true, false, true => .getTemperature x
  | false, true, true, false => .getHumidity x
  | false, true, true, true => .getStatus x
  | true, false, false, false => .getPacket x
  | true, false, false, true => .getBits x
  | true, false, true, false => .classify x
  | true, false, true, true => .chksum x
  | true, true, false, false => .reservedC x
  | true, true, false, true => .reservedD x
  | true, true, true, false => .reservedE x
  | true, true, true, true => .reservedF x

/-- The decoder, total on all `2^20` words (R58): it looks at bits 19:16 only to choose the command. -/
def decodeWord (w : CmdWord) : Instr := ofFields (opcodeOf w) (operandOf w)

/-- The encoder (R52, R54): opcode in bits 19:16, operand in bits 15:0. -/
def encode (i : Instr) : CmdWord := i.opcode ++ i.operand

/-- One row of the opcode map: a word selects it when `w &&& mask = pattern` (R54). -/
structure OpcodeRow where
  mnemonic : String
  pattern : CmdWord
  mask : CmdWord
  deriving DecidableEq, Repr

/-- The opcode map of R54 and R55, row by row as spec/opcode_table.json lists it. -/
def opcodeTable : List OpcodeRow :=
  [⟨"NOP", 0x00000#20, 0xF0000#20⟩, ⟨"DECODE", 0x10000#20, 0xF0000#20⟩,
   ⟨"GET_ID", 0x20000#20, 0xF0000#20⟩, ⟨"GET_BATTERY", 0x30000#20, 0xF0000#20⟩,
   ⟨"GET_CHANNEL", 0x40000#20, 0xF0000#20⟩, ⟨"GET_TEMPERATURE", 0x50000#20, 0xF0000#20⟩,
   ⟨"GET_HUMIDITY", 0x60000#20, 0xF0000#20⟩, ⟨"GET_STATUS", 0x70000#20, 0xF0000#20⟩] ++
  [⟨"GET_PACKET", 0x80000#20, 0xF0000#20⟩, ⟨"GET_BITS", 0x90000#20, 0xF0000#20⟩,
   ⟨"CLASSIFY", 0xA0000#20, 0xF0000#20⟩, ⟨"CHKSUM", 0xB0000#20, 0xF0000#20⟩,
   ⟨"RESERVED_C", 0xC0000#20, 0xF0000#20⟩, ⟨"RESERVED_D", 0xD0000#20, 0xF0000#20⟩,
   ⟨"RESERVED_E", 0xE0000#20, 0xF0000#20⟩, ⟨"RESERVED_F", 0xF0000#20, 0xF0000#20⟩]

/-- Whether a word selects a row (R54). -/
def OpcodeRow.selects (r : OpcodeRow) (w : CmdWord) : Bool := w &&& r.mask == r.pattern

/-- Why a number is not a command word. -/
inductive DecodeError where
  /-- The number needs more than the 20 wires of `cmd_word` (R24, R52); raised by `decodeBits`, safe: no such word can
  be presented to the core (log 23). -/
  | widerThanCommandWord
  deriving DecidableEq, Repr

/-- The decoder on any number of bits: a command word has 20 (R52), a wider number is rejected by name. -/
def decodeBits (w : Nat) : Except DecodeError Instr :=
  if w < 2 ^ 20 then .ok (decodeWord (BitVec.ofNat 20 w)) else .error .widerThanCommandWord

/-- What the decoder reads from an instruction whose first `nbits` bits are `w` and whose other bits are zero. -/
def decodeTableWord (nbits w : Nat) : Option Instr :=
  match decodeBits (w % 2 ^ nbits) with
  | .ok i => some i
  | .error _ => none

end Sys2Proof
end

