-- ==== Sys2Proof/Config.lean ====
section
/-! DEFINITION. The wired constants of the hardware (R5, R8), the two thresholds the spec leaves open (R6) and the
free values (opaque: no proof can see them). -/

namespace Sys2Proof.Config

/-- `PACKET_SIZE` (R5): number of cells of `BA`. -/
def packetSize : Nat := 47

/-- `PAYLOAD_BITS` (R5): number of cells that carry payload. -/
def payloadBits : Nat := 40

/-- `SYNC_W` (R5), microseconds. -/
def syncW : Nat := 1000

/-- `HEAD_W` (R5), microseconds. -/
def headW : Nat := 7900

/-- `N_SYNC` (R5): required consecutive SYNC pulses. -/
def nSync : Nat := 8

/-- `END_PACKET` (R5, R7): carried, read by no rule. -/
def endPacket : Nat := 10000

/-- `MIN_PACKET` (R5, R7): carried, read by no rule. -/
def minPacket : Nat := 650

/-- `TBUF_DEPTH` (R8): entries of the timing buffer. -/
def tbufDepth : Nat := 64

/-- The start value of the rolling mask (R94). -/
def maskInit : Nibble := 0xC#4

/-- The feedback constant of the rolling mask (R94). -/
def maskFeedback : Nibble := 0x9#4

/-- The raw temperature of zero degrees (R106): `0x4C4 = 1220`. -/
def tempZero : Int := 0x4C4

/-- `T_ONE` (R6, D11): OPEN. A named parameter without a value: free (log 3). -/
opaque tOne : Duration

/-- `T_ZERO` (R6, D11): OPEN. A named parameter without a value: free (log 3). -/
opaque tZero : Duration

/-- What DECODE reads for an entry the host writes while the attempt runs (R153: unspecified; R151, U3: a model draws any
value): free, by draw number and entry (log 5). -/
opaque tornValue : Nat → Nat → Duration

/-- `mask` outside an evaluation of the checksum (R22, V5: any value): free, by draw number (log 7). -/
opaque idleMask : Nat → Nibble

/-- `acc` outside an evaluation of the checksum (R22, V5: any value): free, by draw number (log 7). -/
opaque idleAcc : Nat → Nibble

/-- `j` outside an evaluation of the checksum (R22, V5: any value): free, by draw number (log 7). -/
opaque idleJ : Nat → BitVec 6

end Sys2Proof.Config
end

