-- ==== Sys2Proof/Machine/State.lean ====
section
/-! DEFINITION. The state of one core and its host's channels, as plain data (R13, R24, R31), the reasons a step can stop,
and the state right after reset (R28, R146). -/

namespace Sys2Proof.Machine

/-- The five values of `classify` (R45, R63). -/
inductive Symbol where
  | noise
  | zero
  | one
  | sync
  | head
  deriving DecidableEq, Repr

/-- The sequencer phases (R21). -/
inductive Phase where
  | idle
  | clear
  | sync
  | head
  | bits
  | check
  deriving DecidableEq, Repr

/-- The outcome of a decode attempt (R12, R133): a label, no state. -/
inductive AttemptOutcome where
  | syncFail
  | headFail
  | csumFail
  | accept
  deriving DecidableEq, Repr

/-- The result of the sanity check (R57, R134): a response value, no state (R23). -/
inductive Status where
  | ok
  | invalidHumidity
  | invalidTemperature
  deriving DecidableEq, Repr

/-- What the response channel carries in the cycle with `rsp_valid = 1` (R24, R26). -/
structure Response where
  /-- `rsp_data`. -/
  data : RspData
  /-- `rsp_illegal`. -/
  illegal : Bool
  deriving DecidableEq, Repr

/-- One write on the timing-buffer port (R27): `tb_addr` and `tb_wdata` in a cycle with `tb_we = 1`. -/
structure PortWrite where
  addr : BitVec 6
  data : Duration
  deriving DecidableEq, Repr

/-- One thing the host does on the ports of R24 (log 1). -/
inductive HostAction where
  /-- A write of the timing buffer while no command is in flight (R27). -/
  | write (w : PortWrite)
  /-- A command word, held on `cmd_word` until accepted (R25), and the writes of the timing buffer the host drives from the
  cycle of acceptance to the response (R153), oldest first. -/
  | command (word : CmdWord) (during : List PortWrite)
  /-- `rst = 1` at a rising edge while no command is in flight (R146). -/
  | reset
  /-- A command word that is accepted, the writes driven while it executes, and then `rst = 1` before its response (R147). -/
  | abandoned (word : CmdWord) (during : List PortWrite)
  deriving DecidableEq, Repr

/-- The working registers of one evaluation of the checksum (R22). -/
structure CkRegs where
  mask : Nibble
  acc : Nibble
  j : BitVec 6
  deriving DecidableEq, Repr

/-- The timing buffer `TBUF` (R31): written entries only, as (index, duration), indices strictly rising. An index that is
not listed was never written (R32). -/
abbrev Memory := List (Nat × Duration)

/-- The state of one core and of its channels to the host. -/
structure State where
  /-- `BA`, the BitArray register file (R14): cell `k` is bit `k`. -/
  ba : BitArray
  /-- `PV`, the PacketValue accumulator (R16). -/
  pv : PacketValue
  /-- `T_ONE` (R6, R18): wired per instance, never written. -/
  tOne : Duration
  /-- `T_ZERO` (R6, R18): wired per instance, never written. -/
  tZero : Duration
  /-- `i`, the scan index (R19). -/
  i : Index
  /-- `cnt`, the consecutive-SYNC counter (R20). -/
  cnt : BitVec 4
  /-- `offset`, the payload offset (R20). -/
  offset : Index
  /-- `phase`, the sequencer phase (R21). -/
  phase : Phase
  /-- `mask`, `acc`, `j` (R22). -/
  ck : CkRegs
  /-- `TBUF`, the host's timing buffer (R31). -/
  tbuf : Memory
  /-- `busy` (R24, R25). -/
  busy : Bool
  /-- `rsp_valid`, `rsp_data`, `rsp_illegal` (R24, R26): `none` is `rsp_valid = 0`. -/
  rsp : Option Response
  /-- The model's own (log 1): what the host does next, oldest first. -/
  inputs : List HostAction
  /-- The model's own (log 5): the writes driven on the `tb_` port while the command in flight executes. -/
  portWrites : List PortWrite
  /-- The model's own (log 10): every response the host has received, oldest first (R131). -/
  received : List Response
  /-- The model's own (log 7): how many times free values were drawn; read only as an argument of the opaque constants. -/
  draws : Nat
  deriving DecidableEq, Repr

/-- The reasons the machine stops with a fault. -/
inductive Fault where
  /-- V3 of spec/93: a consumer of the symbol wires (SYNCDET, HEADCHK, BITDEC) sees code 5, 6 or 7, "a broken core". Raised by
  `symbolAt`. Safe: the classifier never produces such a code (R45), so no state reaches it. -/
  | brokenSymbolCode (code : BitVec 3)
  deriving DecidableEq, Repr

/-- The reasons the machine has no next state. -/
inductive Refusal where
  /-- A command without a meaning yet; raised only by `exec`'s rejected arms. Safe. -/
  | notModelled (mnemonic : String)
  /-- R32: a DECODE reads an entry of `TBUF` that the host has never written. Raised by `readEntry`. Safe: the machine stops
  where the hardware goes on with an unspecified duration (log 4). -/
  | unwrittenEntry (index : Nat)
  deriving DecidableEq, Repr

/-- `cmd_ready` (R25, R146): 0 over the cycles of `busy = 1`, and 0 while `rst = 1` (log 9). -/
def State.cmdReady (s : State) (rst : Bool) : Bool := !rst && !s.busy

/-- The state right after reset (R28, R146). `mask`, `acc`, `j` are unspecified there: log 6. The two open thresholds are the
opaque constants of Config: log 3. -/
def State.reset : State where
  ba := 0#47
  pv := 0#64
  tOne := Config.tOne
  tZero := Config.tZero
  i := 0#7
  cnt := 0#4
  offset := 0#7
  phase := .idle
  ck := ⟨0#4, 0#4, 0#6⟩
  tbuf := []
  busy := false
  rsp := none
  inputs := []
  portWrites := []
  received := []
  draws := 0

end Sys2Proof.Machine
end

