-- ==== Sys2Proof/Machine/Ops.lean ====
section
/-! DEFINITION. The named operations every meaning is built of: chaining outcomes, the timing buffer (R31 to R39), the
register file (R14, R82, R101), the accumulator (R81), the end of an attempt (R137), the response channel (R25, R26, R55),
reset (R146) and the write port (R27). -/

namespace Sys2Proof.Machine

/-- Go on with a result, or stop where it stopped. -/
def andThen {α β : Type} (o : Host.Outcome α Fault Refusal) (f : α → Host.Outcome β Fault Refusal) :
    Host.Outcome β Fault Refusal :=
  match o with
  | .next a => f a
  | .fault r => .fault r
  | .refused r => .refused r

/-! ### The timing buffer -/

/-- The entry at index `k` (R31), or nothing where the host has never written one (R32). -/
def Memory.read : Memory → Nat → Option Duration
  | [], _ => none
  | (a, d) :: rest, k => if a = k then some d else Memory.read rest k

/-- Write the entry at index `k`, keeping the indices strictly rising. -/
def Memory.write : Memory → Nat → Duration → Memory
  | [], k, d => [(k, d)]
  | (a, e) :: rest, k, d =>
    if k < a then (k, d) :: (a, e) :: rest
    else if k = a then (k, d) :: rest
    else (a, e) :: Memory.write rest k d

/-- Every listed index lies above `lo`, they rise strictly, and each is an entry of the buffer (R31, R34). -/
def Memory.risingFrom : Nat → Memory → Bool
  | _, [] => true
  | lo, (a, _) :: rest => decide (lo ≤ a) && decide (a < Config.tbufDepth) && Memory.risingFrom (a + 1) rest

/-- The canonical form of the buffer: strictly rising indices, all below `TBUF_DEPTH`. -/
def Memory.wf (m : Memory) : Bool := Memory.risingFrom 0 m

/-- One write on the port: `TBUF[tb_addr] <- tb_wdata` (R27). -/
def portWrite (m : Memory) (w : PortWrite) : Memory := Memory.write m w.addr.toNat w.data

/-- Several writes on the port, oldest first (R27). -/
def portWriteAll (m : Memory) (ws : List PortWrite) : Memory := ws.foldl portWrite m

/-- Whether the host writes entry `k` while the command in flight executes (R153). -/
def writtenMeanwhile (ws : List PortWrite) (k : Nat) : Bool := ws.any fun w => w.addr.toNat == k

/-- `MemRead(k, 1)` (R10, R38). An entry never written is refused (R32). An entry the host writes while the attempt runs
reads as any value (R151, R153): free (log 5). -/
def readEntry (s : State) (k : Nat) : Host.Outcome Duration Fault Refusal :=
  match Memory.read s.tbuf k with
  | none => .refused (.unwrittenEntry k)
  | some old => .next (if writtenMeanwhile s.portWrites k then Config.tornValue s.draws k else old)

/-! ### The register file and the accumulator -/

/-- `BA[k]` as a number, 0 or 1 (R10). -/
def cellNat (ba : BitArray) (k : Nat) : Nat := (ba.getLsbD k).toNat

/-- The sum of `BA[lo + k] * 2^k` over `k < width`. -/
def revSum (ba : BitArray) (lo : Nat) : Nat → Nat
  | 0 => 0
  | width + 1 => revSum ba lo width + cellNat ba (lo + width) * 2 ^ width

/-- `rev(lo, hi)`, the reversed-order read of a range of cells: the cell at `lo` is least significant (R10, R101). -/
def rev (ba : BitArray) (lo hi : Nat) : Nat := revSum ba lo (hi - lo + 1)

/-- `BA` with cell `k` set to `b`. -/
def setCell (ba : BitArray) (k : Nat) (b : Bool) : BitArray :=
  if b then ba ||| BitVec.twoPow 47 k else ba &&& ~~~(BitVec.twoPow 47 k)

/-- `write_cell(k, b)`: a write at 47 or above is dropped (R82). -/
def writeCell (k : Nat) (b : Bool) (s : State) : State :=
  if k < Config.packetSize then { s with ba := setCell s.ba k b } else s

/-- `PV <- ((PV << 1) | b)[63:0]` (R81, R85). -/
def shiftIn (b : Bool) (s : State) : State :=
  { s with pv := (s.pv <<< 1) ||| (BitVec.ofBool b).zeroExtend 64 }

/-- `BA <- 0`, `PV <- 0`: the effect of CLEAR (R79) and of a checksum rejection (R124). -/
def zeroPacket (s : State) : State := { s with ba := 0#47, pv := 0#64 }

/-! ### The end of an attempt: what stands in place of an exception's entry and return (R132, R137, R138) -/

/-- On every path, abort or not: `i <- 0; cnt <- 0; offset <- 0; phase <- IDLE` (R74, R121, R137). The next attempt draws
its free values anew (log 5). -/
def endAttempt (s : State) : State :=
  { s with i := 0#7, cnt := 0#4, offset := 0#7, phase := .idle, draws := s.draws + 1 }

/-- After an evaluation of the checksum `mask`, `acc` and `j` mean nothing (R22) and hold any value (V5): free (log 7). -/
def forgetWorking (s : State) : State :=
  { s with
    ck := ⟨Config.idleMask s.draws, Config.idleAcc s.draws, Config.idleJ s.draws⟩
    draws := s.draws + 1 }

/-! ### The command and response channels -/

/-- A command is accepted (R25): it leaves the host's list, `busy` rises, `rsp_valid` has fallen, and the writes the host
drives until the response stand on the port. -/
def accept (rest : List HostAction) (during : List PortWrite) (s : State) : State :=
  { s with inputs := rest, portWrites := during, busy := true, rsp := none }

/-- The one response of a command (R26): `rsp_valid = 1`, `busy = 0`. -/
def answer (r : Response) (s : State) : State :=
  { s with rsp := some r, busy := false, received := s.received ++ [r] }

/-- `respond(v)` (R10): `rsp_illegal = 0`. -/
def respond (v : RspData) (s : State) : State := answer ⟨v, false⟩ s

/-- `respond_illegal()` (R10, R55): value 0, `rsp_illegal = 1`. -/
def respondIllegal (s : State) : State := answer ⟨0#64, true⟩ s

/-! ### What happens on the other ports -/

/-- The writes driven while a command was in flight have landed (R27). -/
def settle (s : State) : State :=
  { s with tbuf := portWriteAll s.tbuf s.portWrites, portWrites := [] }

/-- A write of the timing buffer while no command is in flight (R27). -/
def hostWrite (w : PortWrite) (rest : List HostAction) (s : State) : State :=
  { s with tbuf := portWrite s.tbuf w, inputs := rest, rsp := none }

/-- `rst = 1` at a rising edge (R146): every state element takes its value of R28; the thresholds and `TBUF` are
untouched, and so is what belongs to the host (log 11). -/
def applyReset (rest : List HostAction) (s : State) : State :=
  { State.reset with
    tOne := s.tOne
    tZero := s.tZero
    tbuf := s.tbuf
    inputs := rest
    received := s.received
    draws := s.draws }

/-- A command reset away before its response (R147): no response, the state of R146 whatever the command had done so far;
the host's writes of `TBUF` stand (R146: `TBUF` is not affected). -/
def abandon (rest : List HostAction) (during : List PortWrite) (s : State) : State :=
  applyReset rest { s with tbuf := portWriteAll s.tbuf during }

/-- A step in which nothing is accepted: `rsp_valid` was 1 for one cycle (R26), the core waits (R131, V8). -/
def wait (s : State) : State := { s with rsp := none }

end Sys2Proof.Machine
end

