-- ==== Sys2Proof/Machine/Reserved.lean ====
section
/-! DEFINITION. The reserved opcodes (R55, R135): the illegal response, no state change, no trap. -/

namespace Sys2Proof.Machine

/-- Opcode 0xC (R55). -/
def execReservedC (_operand : Operand) (s : State) : Host.Outcome State Fault Refusal := .next (respondIllegal s)

/-- Opcode 0xD (R55). -/
def execReservedD (_operand : Operand) (s : State) : Host.Outcome State Fault Refusal := .next (respondIllegal s)

/-- Opcode 0xE (R55). -/
def execReservedE (_operand : Operand) (s : State) : Host.Outcome State Fault Refusal := .next (respondIllegal s)

/-- Opcode 0xF (R55). -/
def execReservedF (_operand : Operand) (s : State) : Host.Outcome State Fault Refusal := .next (respondIllegal s)

end Sys2Proof.Machine
end

