-- ==== Sys2Proof/Machine/Fields.lean ====
section
/-! DEFINITION. Sub-block 5, the field multiplexer (R101 to R113): five pure reads of `BA`. -/

namespace Sys2Proof.Machine

/-- The temperature numerator `(rev(16, 27) - 1220) * 5` (R106, R108). -/
def temperatureNum (ba : BitArray) : Int := ((rev ba 16 27 : Int) - Config.tempZero) * 5

/-- The humidity `rev(28, 31) * 10 + rev(32, 35)` (R109, R110). -/
def humidity (ba : BitArray) : Nat := rev ba 28 31 * 10 + rev ba 32 35

/-- GET_ID (R103). -/
def execGetId (_operand : Operand) (s : State) : Host.Outcome State Fault Refusal :=
  .next (respond (BitVec.ofNat 64 (rev s.ba 0 7)) s)

/-- GET_BATTERY (R104): `1 - BA[13]`. -/
def execGetBattery (_operand : Operand) (s : State) : Host.Outcome State Fault Refusal :=
  .next (respond (BitVec.ofNat 64 (1 - cellNat s.ba 13)) s)

/-- GET_CHANNEL (R105). -/
def execGetChannel (_operand : Operand) (s : State) : Host.Outcome State Fault Refusal :=
  .next (respond (BitVec.ofNat 64 (rev s.ba 38 39)) s)

/-- GET_TEMPERATURE (R106): the numerator in 16 bits, sign-extended to 64. -/
def execGetTemperature (_operand : Operand) (s : State) : Host.Outcome State Fault Refusal :=
  .next (respond ((BitVec.ofInt 16 (temperatureNum s.ba)).signExtend 64) s)

/-- GET_HUMIDITY (R109). -/
def execGetHumidity (_operand : Operand) (s : State) : Host.Outcome State Fault Refusal :=
  .next (respond (BitVec.ofNat 64 (humidity s.ba)) s)

end Sys2Proof.Machine
end

