-- ==== Sys2Proof/Machine/Flags.lean ====
section
/-! DEFINITION. The core has no flags, condition codes or predicate registers (R23). What a flag would say is computed each
time it is asked for: here the codes of the two small enumerations that travel on wires (R45, R57) and the sanity
classification (R115 to R117). -/

namespace Sys2Proof.Machine

/-- The 3-bit code of a symbol (R45). -/
def Symbol.code : Symbol → BitVec 3
  | .noise => 0#3
  | .zero => 1#3
  | .one => 2#3
  | .sync => 3#3
  | .head => 4#3

/-- What a consumer of the symbol wires makes of a code: 5, 6 and 7 are no symbol (R45, V3). -/
def symbolOfCode (c : BitVec 3) : Option Symbol :=
  match c.toNat with
  | 0 => some .noise
  | 1 => some .zero
  | 2 => some .one
  | 3 => some .sync
  | 4 => some .head
  | _ => none

/-- The 2-bit status code (R57). -/
def Status.code : Status → BitVec 2
  | .ok => 0#2
  | .invalidHumidity => 1#2
  | .invalidTemperature => 2#2

/-- Humidity is invalid when `(hum > 100 or hum < 10) and hum != 0` (R116). -/
def humidityInvalid (hum : Nat) : Bool :=
  (decide (100 < hum) || decide (hum < 10)) && hum != 0

/-- Temperature is invalid when the numerator is below -3600 or above 8100, that is outside [-40.0, 90.0] (R117). -/
def temperatureInvalid (num : Int) : Bool :=
  decide (num < -3600) || decide (8100 < num)

/-- The priority encoder of the sanity validator: humidity first (R115, R118). -/
def sanity (hum : Nat) (num : Int) : Status :=
  if humidityInvalid hum then .invalidHumidity
  else if temperatureInvalid num then .invalidTemperature
  else .ok

end Sys2Proof.Machine
end

