-- ==== Sys2Proof/Machine/Sanity.lean ====
section
/-! DEFINITION. Sub-block 6, the range comparator (R114 to R119), and its command GET_STATUS. -/

namespace Sys2Proof.Machine

/-- The status of the present content of `BA` (R114, R115). -/
def statusOf (ba : BitArray) : Status := sanity (humidity ba) (temperatureNum ba)

/-- GET_STATUS (R115). -/
def execGetStatus (_operand : Operand) (s : State) : Host.Outcome State Fault Refusal :=
  .next (respond ((statusOf s.ba).code.zeroExtend 64) s)

end Sys2Proof.Machine
end

