-- ==== Sys2Proof/Machine/Operands.lean ====
section
/-! DEFINITION. Operand assembly (R53): the only two commands that use their operand are DECODE and CLASSIFY. -/

namespace Sys2Proof.Machine

/-- The length bound `n` of DECODE: `operand[6:0]` (R53). -/
def lengthOf (operand : Operand) : Index := operand.extractLsb' 0 7

/-- `operand[15:7]`, which DECODE requires to be zero (R53). -/
def highBitsOf (operand : Operand) : BitVec 9 := operand.extractLsb' 7 9

/-- Whether a DECODE operand is legal: `operand[15:7] = 0` and `n <= 64` (R53, R122). -/
def decodeLegal (operand : Operand) : Bool :=
  highBitsOf operand == 0#9 && decide ((lengthOf operand).toNat ≤ 64)

/-- The duration `d` of CLASSIFY: the whole operand, every value legal (R53). -/
def durationOf (operand : Operand) : Duration := operand

end Sys2Proof.Machine
end

