-- ==== Sys2Proof/Machine/Classifier.lean ====
section
/-! DEFINITION. Sub-block 1, the timing classifier (R61 to R68): the tolerance bands, the priority chain, the wires to its
users, and the command CLASSIFY. -/

namespace Sys2Proof.Machine

/-- Strictly inside the band of ten per cent around `w`, in exact arithmetic: `10*d > 9*W and 10*d < 11*W` (R64). -/
def inBand (w : Nat) (d : Duration) : Bool :=
  decide (9 * w < 10 * d.toNat) && decide (10 * d.toNat < 11 * w)

/-- `classify(d)`: the first true test decides (R63, R65). -/
def classify (tOne tZero : Duration) (d : Duration) : Symbol :=
  if inBand Config.syncW d then .sync
  else if inBand Config.headW d then .head
  else if tOne < d then .one
  else if tZero < d then .zero
  else .noise

/-- The symbol wires: the classifier's 3-bit code of a duration (R45). -/
def symbolWires (s : State) (d : Duration) : BitVec 3 := (classify s.tOne s.tZero d).code

/-- What a user of the classifier sees of entry `k` of `TBUF` (R67): the entry is read, classified, and its code taken off
the wires; a code that is no symbol is a fault (V3). -/
def symbolAt (s : State) (k : Nat) : Host.Outcome Symbol Fault Refusal :=
  andThen (readEntry s k) fun d =>
    match symbolOfCode (symbolWires s d) with
    | some x => .next x
    | none => .fault (.brokenSymbolCode (symbolWires s d))

/-- CLASSIFY `d` (R62): respond with the symbol code; nothing else changes. -/
def execClassify (operand : Operand) (s : State) : Host.Outcome State Fault Refusal :=
  .next (respond ((symbolWires s (durationOf operand)).zeroExtend 64) s)

end Sys2Proof.Machine
end

