-- ==== Sys2Proof/Machine/BitStream.lean ====
section
/-! DEFINITION. Sub-block 3, the bit-stream accumulator and register file (R78 to R89): the micro-operations CLEAR and BITDEC,
and the commands GET_PACKET and GET_BITS. -/

namespace Sys2Proof.Machine

/-- CLEAR (R79). -/
def clear (s : State) : State := zeroPacket { s with phase := .clear }

/-- The per-pulse step (R81): ONE and ZERO shift `PV` and write the cell `i - offset`, everything else is skipped (R83). -/
def pulse (x : Symbol) (s : State) : State :=
  match x with
  | .one => writeCell (s.i - s.offset).toNat true (shiftIn true s)
  | .zero => writeCell (s.i - s.offset).toNat false (shiftIn false s)
  | .noise => s
  | .sync => s
  | .head => s

/-- The loop of BITDEC (R80): `while i < n`. The count of rounds left is `n` at the start, more than the loop can take. -/
def bitScan : Nat → Index → State → Host.Outcome State Fault Refusal
  | 0, _, s => .next s
  | rounds + 1, n, s =>
    if s.i < n then
      andThen (symbolAt s s.i.toNat) fun x =>
        bitScan rounds n { pulse x s with i := s.i + 1#7 }
    else .next s

/-- BITDEC (R80): from the post-HEAD offset to the end of the sequence. -/
def bitdec (n : Index) (s : State) : Host.Outcome State Fault Refusal :=
  bitScan n.toNat n { s with phase := .bits, i := s.offset }

/-- GET_PACKET (R86): `respond(PV)`. -/
def execGetPacket (_operand : Operand) (s : State) : Host.Outcome State Fault Refusal :=
  .next (respond s.pv s)

/-- GET_BITS (R87): bit `k` of the response is `BA[k]`, bits 63:47 are 0. -/
def execGetBits (_operand : Operand) (s : State) : Host.Outcome State Fault Refusal :=
  .next (respond (s.ba.zeroExtend 64) s)

end Sys2Proof.Machine
end

