-- ==== Sys2Proof/Machine/Checksum.lean ====
section
/-! DEFINITION. Sub-block 4, the rolling-XOR checksum validator (R90 to R100): the reordered copy, the rolling mask, the
evaluation in the working registers, and the command CHKSUM. -/

namespace Sys2Proof.Machine

/-- The reordered working copy (R93), bit `j` is `r[j]`: cells 0 to 7, then 36 to 39, then 12 to 35. -/
def reorder (ba : BitArray) : Reordered :=
  ba.extractLsb' 12 24 ++ ba.extractLsb' 36 4 ++ ba.extractLsb' 0 8

/-- The feedback of the mask: `if mask[0] = 1: mask <- mask xor 0x9` (R94). -/
def feedback (mask : Nibble) : Nibble :=
  if mask.getLsbD 0 then mask ^^^ Config.maskFeedback else mask

/-- One round of the rolling-mask computation (R94): feedback, then `acc` with the updated mask, then the shift. -/
def ckRound (r : Reordered) (w : CkRegs) : CkRegs where
  mask := feedback w.mask >>> 1
  acc := if r.getLsbD w.j.toNat then w.acc ^^^ feedback w.mask else w.acc
  j := w.j + 1#6

/-- So many rounds of R94. -/
def ckRounds (r : Reordered) : Nat → CkRegs → CkRegs
  | 0, w => w
  | k + 1, w => ckRounds r k (ckRound r w)

/-- The working registers at the start of an evaluation (R22, R94). -/
def ckStart : CkRegs := ⟨Config.maskInit, 0#4, 0#6⟩

/-- The result of an evaluation (R92). -/
structure CkResult where
  accept : Bool
  acc : Nibble
  tx : Nibble
  deriving DecidableEq, Repr

/-- The transmitted checksum `tx = rev(8, 11)` (R91). -/
def transmitted (ba : BitArray) : Nibble := BitVec.ofNat 4 (rev ba 8 11)

/-- The working registers after the 36 rounds of R94. -/
def ckFinal (ba : BitArray) : CkRegs := ckRounds (reorder ba) 36 ckStart

/-- `checksum(BA)` (R92 to R95): accepted when the accumulator equals the transmitted nibble. -/
def checksum (ba : BitArray) : CkResult where
  accept := (ckFinal ba).acc == transmitted ba
  acc := (ckFinal ba).acc
  tx := transmitted ba

/-- Evaluate the checksum of `BA` in the working registers. -/
def evaluate (s : State) : State := { s with ck := ckFinal s.ba }

/-- What CHKSUM answers: bit 0 accept, bits 7:4 the accumulator, bits 11:8 the transmitted checksum (R56, R92). -/
def ckWord (c : CkResult) : RspData :=
  (c.tx ++ c.acc ++ 0#3 ++ BitVec.ofBool c.accept).zeroExtend 64

/-- CHKSUM (R92): the working registers run one evaluation and mean nothing after it; nothing else changes. -/
def execChksum (_operand : Operand) (s : State) : Host.Outcome State Fault Refusal :=
  .next (respond (ckWord (checksum s.ba)) (forgetWorking (evaluate s)))

end Sys2Proof.Machine
end

