-- ==== Sys2Proof/Machine/SyncDetector.lean ====
section
/-! DEFINITION. Sub-block 2, the sync pattern detector (R69 to R77): the micro-operations SYNCDET and HEADCHK. Each answers the
state and, where it aborts the attempt, the outcome it raises; `none` is "falls through". -/

namespace Sys2Proof.Machine

/-- The loop of SYNCDET (R70 to R72). The count of rounds left is `n` at the start, more than the loop can take. -/
def syncScan : Nat → Index → State → Host.Outcome (State × Option AttemptOutcome) Fault Refusal
  | 0, _, s => .next (s, some .syncFail)
  | rounds + 1, n, s =>
    if s.i < n then
      andThen (symbolAt s s.i.toNat) fun x =>
        if x = .sync then
          if s.cnt + 1#4 = BitVec.ofNat 4 Config.nSync then
            .next ({ s with cnt := s.cnt + 1#4, offset := s.i + 1#7 }, none)
          else syncScan rounds n { s with cnt := s.cnt + 1#4, i := s.i + 1#7 }
        else .next ({ s with cnt := 0#4 }, some .syncFail)
    else .next (s, some .syncFail)

/-- SYNCDET (R70): the scan starts at index 1. -/
def syncdet (n : Index) (s : State) : Host.Outcome (State × Option AttemptOutcome) Fault Refusal :=
  syncScan n.toNat n { s with phase := .sync, cnt := 0#4, i := 1#7 }

/-- HEADCHK (R73): the pulse at `offset` must exist and be HEAD. -/
def headchk (n : Index) (s : State) : Host.Outcome (State × Option AttemptOutcome) Fault Refusal :=
  if n ≤ s.offset then .next ({ s with phase := .head }, some .headFail)
  else
    andThen (symbolAt s s.offset.toNat) fun x =>
      if x = .head then .next ({ s with phase := .head, offset := s.offset + 1#7 }, none)
      else .next ({ s with phase := .head }, some .headFail)

end Sys2Proof.Machine
end

