-- ==== Sys2Proof/Machine/Sequencer.lean ====
section
/-! DEFINITION. The decode sequencer (R120 to R131): one decode attempt through CLEAR, SYNCDET, HEADCHK, BITDEC and CHECK, the
command DECODE, and NOP. -/

namespace Sys2Proof.Machine

/-- CHECK (R123, R124): evaluate the checksum; on rejection clear `BA` and `PV`. -/
def check (s : State) : State × AttemptOutcome :=
  let t := forgetWorking (evaluate { s with phase := .check })
  if (checksum s.ba).accept then (t, .accept) else (zeroPacket t, .csumFail)

/-- BITDEC and CHECK, run when the head was found (R121). -/
def payload (n : Index) (s : State) : Host.Outcome (State × AttemptOutcome) Fault Refusal :=
  andThen (bitdec n s) fun t => .next (endAttempt (check t).1, (check t).2)

/-- HEADCHK and what follows, run when the SYNC run was found (R121). -/
def afterSync (n : Index) (s : State) : Host.Outcome (State × AttemptOutcome) Fault Refusal :=
  andThen (headchk n s) fun p =>
    match p.2 with
    | some o => .next (endAttempt p.1, o)
    | none => payload n p.1

/-- One decode attempt with length bound `n` (R121, R127): the state at its end and its outcome label (R133). -/
def attempt (n : Index) (s : State) : Host.Outcome (State × AttemptOutcome) Fault Refusal :=
  andThen (syncdet n (clear s)) fun p =>
    match p.2 with
    | some o => .next (endAttempt p.1, o)
    | none => afterSync n p.1

/-- DECODE (R121, R122): a malformed operand is illegal and changes nothing; otherwise one attempt, and the response is 0
whatever its outcome. -/
def execDecode (operand : Operand) (s : State) : Host.Outcome State Fault Refusal :=
  if decodeLegal operand then
    andThen (attempt (lengthOf operand) s) fun p => .next (respond 0#64 p.1)
  else .next (respondIllegal s)

/-- NOP (R128). -/
def execNop (_operand : Operand) (s : State) : Host.Outcome State Fault Refusal :=
  .next (respond 0#64 s)

end Sys2Proof.Machine
end

