-- ==== Sys2Proof/Machine/Dispatch.lean ====
section
/-! DEFINITION. One arm per command: the meaning of each row of the opcode map (R54, R55). -/

namespace Sys2Proof.Machine

def exec (i : Instr) (s : State) : Host.Outcome State Fault Refusal :=
  match i with
  | .nop operand => Sys2Proof.Machine.execNop operand s
  | .decode operand => Sys2Proof.Machine.execDecode operand s
  | .getId operand => Sys2Proof.Machine.execGetId operand s
  | .getBattery operand => Sys2Proof.Machine.execGetBattery operand s
  | .getChannel operand => Sys2Proof.Machine.execGetChannel operand s
  | .getTemperature operand => Sys2Proof.Machine.execGetTemperature operand s
  | .getHumidity operand => Sys2Proof.Machine.execGetHumidity operand s
  | .getStatus operand => Sys2Proof.Machine.execGetStatus operand s
  | .getPacket operand => Sys2Proof.Machine.execGetPacket operand s
  | .getBits operand => Sys2Proof.Machine.execGetBits operand s
  | .classify d => Sys2Proof.Machine.execClassify d s
  | .chksum operand => Sys2Proof.Machine.execChksum operand s
  | .reservedC operand => Sys2Proof.Machine.execReservedC operand s
  | .reservedD operand => Sys2Proof.Machine.execReservedD operand s
  | .reservedE operand => Sys2Proof.Machine.execReservedE operand s
  | .reservedF operand => Sys2Proof.Machine.execReservedF operand s

end Sys2Proof.Machine
end

