-- ==== Sys2Proof/Machine/Step.lean ====
section
/-! DEFINITION. One step: the oldest thing the host does (R9, R25), or waiting (R131). A command is one step (R25). -/

namespace Sys2Proof.Machine

/-- The writes driven during a command land when it has responded (R27). -/
def finish (o : Host.Outcome State Fault Refusal) : Host.Outcome State Fault Refusal :=
  andThen o fun t => .next (settle t)

/-- Accept a command word, decode it and run it to its response (R25, R26, R58). -/
def runCommand (word : CmdWord) (during : List PortWrite) (rest : List HostAction) (s : State) :
    Host.Outcome State Fault Refusal :=
  finish (exec (decodeWord word) (accept rest during s))

/-- One step of the machine. A command is taken only while `cmd_ready = 1` (R25); otherwise the host holds it (V8). -/
def step (s : State) : Host.Outcome State Fault Refusal :=
  match s.inputs with
  | [] => .next (wait s)
  | .write w :: rest => .next (hostWrite w rest s)
  | .reset :: rest => .next (applyReset rest s)
  | .abandoned _ during :: rest => if s.cmdReady false then .next (abandon rest during s) else .next (wait s)
  | .command word during :: rest => if s.cmdReady false then runCommand word during rest s else .next (wait s)

/-- `s` with the command whose bits are `w` presented next on `cmd_word`, and the core ready to take it. -/
def State.withFetchWord (s : State) (nbits w : Nat) : State :=
  { s with
    busy := false
    inputs := .command (BitVec.ofNat 20 (w % 2 ^ nbits)) [] :: s.inputs }

end Sys2Proof.Machine
end

