-- ==== Sys2Proof/Machine/ClosedForm.lean ====
section
/-! DEFINITION. The closed forms the spec gives beside its step-by-step rules: sub-block 2 (R75), sub-block 3 (R89), the checksum
(R96) and DECODE as a function (R127). The machine runs the step-by-step rules; that they agree is stated as obligations.
Each takes the symbol of entry `k` of `TBUF` as a function `f k`, of which it uses indices below `n` only. -/

namespace Sys2Proof.Machine

/-- `outcome2(n, TBUF)` (R75): `none` is "pass, offset = 10". -/
def outcome2 (n : Nat) (f : Nat → Symbol) : Option AttemptOutcome :=
  if [1, 2, 3, 4, 5, 6, 7, 8].any fun k => decide (n ≤ k) || f k != .sync then some .syncFail
  else if n ≤ 9 || f 9 != .head then some .headFail
  else none

/-- Whether payload position `k` brings a one to `BA[k]` (R89). -/
def payloadOne (n : Nat) (f : Nat → Symbol) (k : Nat) : Bool :=
  decide (10 + k < n) && f (10 + k) == .one

/-- `BA` after CLEAR and BITDEC (R89). -/
def payloadBits (n : Nat) (f : Nat → Symbol) : BitArray :=
  BitVec.ofFnLE fun k : Fin 47 => payloadOne n f k.val

/-- One more binary digit behind a number, for a ONE or a ZERO (R89). -/
def appendDigit (f : Nat → Symbol) (p k : Nat) : Nat :=
  match f k with
  | .one => 2 * p + 1
  | .zero => 2 * p
  | .noise => p
  | .sync => p
  | .head => p

/-- The number whose binary digits, most significant first, are the ONE and ZERO entries from 10 to `n - 1` (R89). -/
def payloadNumber (n : Nat) (f : Nat → Symbol) : Nat :=
  (List.range' 10 (n - 10)).foldl (appendDigit f) 0

/-- `PV` after CLEAR and BITDEC (R89). -/
def payloadValue (n : Nat) (f : Nat → Symbol) : PacketValue := BitVec.ofNat 64 (payloadNumber n f)

/-- The mask in use at position `j` (R96): `M[j mod 3]`. -/
def maskAt (j : Nat) : Nibble :=
  match j % 3 with
  | 0 => 0xC#4
  | 1 => 0x6#4
  | _ => 0xA#4

/-- The XOR of `M[j mod 3]` over the positions `j` below `k` with `r[j] = 1` (R96). -/
def maskXor (r : Reordered) : Nat → Nibble
  | 0 => 0#4
  | k + 1 => maskXor r k ^^^ (if r.getLsbD k then maskAt k else 0#4)

/-- The parity of the number of set bits of `r` at positions equal to `m` modulo 3 (R96): true when it is odd. -/
def parityAt (r : Reordered) (m : Nat) : Bool :=
  ((List.range 36).filter fun j => j % 3 == m && r.getLsbD j).length % 2 == 1

/-- `decode(n, TBUF)` (R127): `BA`, `PV` and the outcome label. -/
def decodeClosed (n : Nat) (f : Nat → Symbol) : BitArray × PacketValue × AttemptOutcome :=
  match outcome2 n f with
  | some o => (0#47, 0#64, o)
  | none =>
    if (checksum (payloadBits n f)).accept then (payloadBits n f, payloadValue n f, .accept)
    else (0#47, 0#64, .csumFail)

end Sys2Proof.Machine
end

