-- ==== Sys2Proof/Safety.lean ====
section
/-! DEFINITION. What claims call a good state and a met host duty: the invariant of the state between commands (R13, R15, R20,
R21, R85, R131), the duties R152 and R153, and what a command leaves as it was (R130). -/

namespace Sys2Proof.Machine

/-- The core is idle (R131): no command in flight, the sequencer at rest, its counters zero (R20, R21). -/
def State.idle (s : State) : Prop :=
  s.busy = false ∧ s.phase = .idle ∧ s.i = 0#7 ∧ s.cnt = 0#4 ∧ s.offset = 0#7 ∧ s.portWrites = []

/-- Between commands: the core is idle, `BA` holds an array the checksum accepts (R15, R92), `PV` is below `2^54` (R85), an
empty `PV` means an empty `BA`, and the timing buffer is in canonical form. -/
def State.Inv (s : State) : Prop :=
  s.idle ∧ (checksum s.ba).accept = true ∧ s.pv.toNat < 2 ^ 54 ∧ (s.pv = 0#64 → s.ba = 0#47) ∧ Memory.wf s.tbuf = true

/-- H1 and H2 (R152, R153): the entries 1 to `n - 1` are written, with the durations `d`, and the host does not write while
the command in flight executes. -/
def hostDuty (n : Nat) (d : Nat → Duration) (s : State) : Prop :=
  s.portWrites = [] ∧ ∀ k, 1 ≤ k → k < n → Memory.read s.tbuf k = some (d k)

/-- The symbol of entry `k` when the entries are `d` and the thresholds those of `s`. -/
def symbolsOf (s : State) (d : Nat → Duration) (k : Nat) : Symbol := classify s.tOne s.tZero (d k)

/-- Nothing the core holds between commands, nothing of the sequencer, and no entry of the timing buffer differs. -/
def sameCore (s t : State) : Prop :=
  t.ba = s.ba ∧ t.pv = s.pv ∧ t.tOne = s.tOne ∧ t.tZero = s.tZero ∧
  t.i = s.i ∧ t.cnt = s.cnt ∧ t.offset = s.offset ∧ t.phase = s.phase ∧
  t.inputs = s.inputs ∧ t.portWrites = s.portWrites ∧ ∀ k, Memory.read t.tbuf k = Memory.read s.tbuf k

/-- The response channel after a command that answered `r` (R25, R26). -/
def answered (r : Response) (s t : State) : Prop :=
  t.rsp = some r ∧ t.busy = false ∧ t.received = s.received ++ [r]

/-- A command that answers `v`, legally, and changes nothing else, not even a working register. -/
def answersOnly (i : Instr) (s : State) (v : RspData) : Prop :=
  ∃ t, exec i s = .next t ∧ answered ⟨v, false⟩ s t ∧ sameCore s t ∧ t.ck = s.ck ∧ t.draws = s.draws

/-- A command that gets the illegal response and changes nothing else (R55). -/
def answersIllegal (i : Instr) (s : State) : Prop :=
  ∃ t, exec i s = .next t ∧ answered ⟨0#64, true⟩ s t ∧ sameCore s t ∧ t.ck = s.ck ∧ t.draws = s.draws

/-- The value a command answers with, where it answers legally. -/
def answerOf (i : Instr) (s : State) : Option RspData :=
  match exec i s with
  | .next t =>
    match t.rsp with
    | some r => if r.illegal then none else some r.data
    | none => none
  | .fault _ => none
  | .refused _ => none

end Sys2Proof.Machine
end

