-- ==== Sys2Proof/Certificates/Slice0/Obligations.lean ====
section
/-! DEFINITION. The statements for the provers: what the numbered rules of spec/ say the core does. -/

open Sys2Proof Sys2Proof.Machine

/-! ### Reset, the invariant and the step -/

/-- R28: the value of every piece of state after reset that the rule gives a value for. -/
def Obligations.ResetStateHoldsResetValues : Prop :=
  State.reset.ba = 0#47 ∧ State.reset.pv = 0#64 ∧ State.reset.i = 0#7 ∧ State.reset.cnt = 0#4 ∧
  State.reset.offset = 0#7 ∧ State.reset.phase = .idle ∧ State.reset.busy = false ∧ State.reset.rsp = none ∧
  State.reset.cmdReady false = true

/-- The invariant holds right after reset. -/
def Obligations.ResetStateSatisfiesInvariant : Prop := State.reset.Inv

/-- Every step keeps the invariant: the core is idle between commands, `BA` is an array the checksum accepts, `PV` is below
`2^54` and zero only with an empty `BA`, and the timing buffer keeps its canonical form. -/
def Obligations.StepKeepsInvariant : Prop :=
  ∀ s t, s.Inv → step s = .next t → t.Inv

/-- No step faults: no consumer of the symbol wires ever sees a code that is no symbol (R45, V3), and nothing else faults. -/
def Obligations.StepNeverFaults : Prop :=
  ∀ s r, step s ≠ .fault r

/-- The only way a step has no next state: a DECODE is taken and reads an entry the host has never written (R32). -/
def Obligations.StepRefusesOnlyUnwrittenEntry : Prop :=
  ∀ s r, step s = .refused r →
    ∃ k word during rest, r = .unwrittenEntry k ∧ 1 ≤ k ∧ k < 64 ∧ Memory.read s.tbuf k = none ∧
      s.inputs = .command word during :: rest ∧ ∃ x, decodeWord word = .decode x ∧ k < x.toNat % 128

/-- A step whose next host action is a command runs exactly the decoded command: on the state in which the command has been
accepted, and the writes driven meanwhile land behind it (log 1, log 21). -/
def Obligations.StepRunsDecodedCommand : Prop :=
  ∀ s word during rest, s.inputs = .command word during :: rest → s.busy = false →
    step s =
      match exec (decodeWord word) { s with inputs := rest, portWrites := during, busy := true, rsp := none } with
      | .next t => .next { t with tbuf := portWriteAll t.tbuf t.portWrites, portWrites := [] }
      | .fault r => .fault r
      | .refused r => .refused r

/-- The steps in which no command runs: with nothing to do the core waits (R131), a command is not taken while `cmd_ready = 0`,
also one that would be reset away (R25, V8; that it waits is log 19), and a host write of `TBUF` changes that entry and no other (R27). The list of host
actions is the model's choice (log 1). -/
def Obligations.StepWithoutCommand : Prop :=
  (∀ s, s.inputs = [] → step s = .next { s with rsp := none }) ∧
  (∀ s word during rest, s.inputs = .command word during :: rest ∨ s.inputs = .abandoned word during :: rest →
    s.busy = true → step s = .next { s with rsp := none }) ∧
  (∀ s w rest, s.inputs = .write w :: rest →
    ∃ m, step s = .next { s with tbuf := m, inputs := rest, rsp := none } ∧ Memory.read m w.addr.toNat = some w.data ∧
      ∀ k, k ≠ w.addr.toNat → Memory.read m k = Memory.read s.tbuf k)

/-- R146 (and the values of R28): `rst = 1` while no command is in flight; `cmd_ready` is 0 while `rst = 1`. What belongs to the
host stays (log 11). -/
def Obligations.RstPutsCoreInResetState : Prop :=
  (∀ s rest, s.inputs = .reset :: rest →
    ∃ t, step s = .next t ∧ t.ba = 0#47 ∧ t.pv = 0#64 ∧ t.i = 0#7 ∧ t.cnt = 0#4 ∧ t.offset = 0#7 ∧ t.phase = .idle ∧
      t.busy = false ∧ t.rsp = none ∧ t.cmdReady false = true ∧ t.tOne = s.tOne ∧ t.tZero = s.tZero ∧
      t.inputs = rest ∧ t.received = s.received ∧ ∀ k, Memory.read t.tbuf k = Memory.read s.tbuf k) ∧
  ∀ s : State, s.cmdReady true = false

/-- R147: a command reset away before its response produces none, and leaves the state of R146 whatever it was. That the
writes driven meanwhile have landed is the model's choice (log 11). -/
def Obligations.AbandonedCommandGivesNoResponse : Prop :=
  ∀ s word during rest, s.inputs = .abandoned word during :: rest → s.busy = false →
    ∃ t, step s = .next t ∧ t.rsp = none ∧ t.received = s.received ∧ t.ba = 0#47 ∧ t.pv = 0#64 ∧ t.i = 0#7 ∧ t.cnt = 0#4 ∧
      t.offset = 0#7 ∧ t.phase = .idle ∧ t.busy = false ∧ t.tOne = s.tOne ∧ t.tZero = s.tZero ∧ t.inputs = rest ∧
      t.tbuf = portWriteAll s.tbuf during

/-- Every command that runs gives exactly one response and leaves the core ready (R25, R26); no other step gives any, be it
that no command is presented or that one is held at a busy core. The list
of received responses is the model's own (log 10). -/
def Obligations.EveryCommandAnswersOnce : Prop :=
  (∀ s t word during rest, s.inputs = .command word during :: rest → s.busy = false → step s = .next t →
    ∃ r, t.rsp = some r ∧ t.received = s.received ++ [r] ∧ t.busy = false ∧ t.cmdReady false = true ∧ t.inputs = rest) ∧
  ∀ s t, (∀ word during rest, s.inputs = .command word during :: rest → s.busy = true) → step s = .next t →
    t.rsp = none ∧ t.received = s.received

/-- The thresholds are the same before and after every step (R18, R150). -/
def Obligations.ThresholdsNeverChange : Prop :=
  ∀ s t, step s = .next t → t.tOne = s.tOne ∧ t.tZero = s.tZero

/-- R33: no command of the core writes the timing buffer; an entry changes in a step only by a write of the host on the port,
and then holds what the host wrote (the list of host actions is the model's choice, log 1). -/
def Obligations.OnlyHostWritesTimingBuffer : Prop :=
  (∀ i s t, exec i s = .next t → ∀ k, Memory.read t.tbuf k = Memory.read s.tbuf k) ∧
  ∀ s t k, step s = .next t → Memory.read t.tbuf k ≠ Memory.read s.tbuf k →
    ∃ w, w.addr.toNat = k ∧ Memory.read t.tbuf k = some w.data ∧
      ((∃ rest, s.inputs = .write w :: rest) ∨
        ∃ word during rest, (s.inputs = .command word during :: rest ∨ s.inputs = .abandoned word during :: rest) ∧
          w ∈ during)

/-! ### The command word -/

/-- Decoding and encoding are inverse, both ways: no bit of a command word is dropped. -/
def Obligations.DecodeAndEncodeAreInverse : Prop :=
  (∀ i, decodeWord (encode i) = i) ∧ ∀ w, encode (decodeWord w) = w

/-- A word selects a row of the opcode map by pattern and mask exactly when it decodes to that row's command (R54), and every
word selects exactly one row (R58). -/
def Obligations.OpcodeMapSelectsOneRow : Prop :=
  (∀ w r, r ∈ opcodeTable → (r.selects w = true ↔ (decodeWord w).mnemonic = r.mnemonic)) ∧
  ∀ w, ∃ r, r ∈ opcodeTable ∧ r.selects w = true ∧ ∀ q, q ∈ opcodeTable → q.selects w = true → q = r

/-- Command words written out from R52 and R59 decode to the command they stand for. -/
def Obligations.DecoderReadsSpecWords : Prop :=
  decodeWord 0x00000#20 = .nop 0#16 ∧ decodeWord 0x10032#20 = .decode 50#16 ∧ decodeWord 0x2ABCD#20 = .getId 0xABCD#16 ∧
  decodeWord 0x70000#20 = .getStatus 0#16 ∧ decodeWord 0xA1EDC#20 = .classify 7900#16 ∧
  decodeWord 0xB0000#20 = .chksum 0#16 ∧ decodeWord 0xD1234#20 = .reservedD 0x1234#16

/-- R55: which words are illegal, what an illegal command does, that a legal one never answers illegal, and that the next
command is taken as usual. -/
def Obligations.IllegalCommandsChangeNothing : Prop :=
  (∀ w, (decodeWord w).wellFormed = false ↔
    12 ≤ w.toNat / 2 ^ 16 ∨ (w.toNat / 2 ^ 16 = 1 ∧ (w.toNat % 2 ^ 16 / 2 ^ 7 ≠ 0 ∨ 64 < w.toNat % 2 ^ 7))) ∧
  (∀ i s, i.wellFormed = false → answersIllegal i s) ∧
  (∀ i s t, i.wellFormed = true → exec i s = .next t → ∃ v, t.rsp = some ⟨v, false⟩) ∧
  ∀ i s t, i.wellFormed = false → exec i s = .next t → t.cmdReady false = true

/-! ### The commands one by one -/

/-- R128: NOP, with any operand. -/
def Obligations.NopRespondsZero : Prop :=
  (∀ x s, answersOnly (.nop x) s 0#64) ∧ ∀ x : Operand, decodeWord (0x0#4 ++ x) = .nop x

/-- R103: GET_ID. -/
def Obligations.GetIdRespondsIdCells : Prop :=
  (∀ x s, answersOnly (.getId x) s (BitVec.ofNat 64 (rev s.ba 0 7)) ∧ rev s.ba 0 7 ≤ 255) ∧
  (∀ x : Operand, decodeWord (0x2#4 ++ x) = .getId x) ∧ rev 0#47 0 7 = 0 ∧ rev 0b00001010#47 0 7 = 10

/-- R104: GET_BATTERY. -/
def Obligations.GetBatteryRespondsInvertedCell : Prop :=
  (∀ x s, answersOnly (.getBattery x) s (if s.ba.getLsbD 13 then 0#64 else 1#64)) ∧
  ∀ x : Operand, decodeWord (0x3#4 ++ x) = .getBattery x

/-- R105: GET_CHANNEL. -/
def Obligations.GetChannelRespondsTwoCells : Prop :=
  (∀ x s, answersOnly (.getChannel x) s (BitVec.ofNat 64 ((s.ba.getLsbD 38).toNat + 2 * (s.ba.getLsbD 39).toNat))) ∧
  ∀ x : Operand, decodeWord (0x4#4 ++ x) = .getChannel x

/-- R106, R108: GET_TEMPERATURE answers the exact numerator as a signed 64-bit value; nothing overflows. -/
def Obligations.GetTemperatureRespondsNumerator : Prop :=
  (∀ x s, ∃ v, answersOnly (.getTemperature x) s v ∧ v.toInt = ((rev s.ba 16 27 : Int) - 1220) * 5 ∧
    -6100 ≤ v.toInt ∧ v.toInt ≤ 14375) ∧
  ∀ x : Operand, decodeWord (0x5#4 ++ x) = .getTemperature x

/-- R109, R110: GET_HUMIDITY, nibbles unchecked, 0 to 165. -/
def Obligations.GetHumidityRespondsTensAndUnits : Prop :=
  (∀ x s, ∃ v, answersOnly (.getHumidity x) s v ∧ v.toNat = rev s.ba 28 31 * 10 + rev s.ba 32 35 ∧ v.toNat ≤ 165) ∧
  (∀ x : Operand, decodeWord (0x6#4 ++ x) = .getHumidity x) ∧
  ∀ a b, a ≤ 15 → b ≤ 15 → ∃ ba : BitArray, rev ba 28 31 = a ∧ rev ba 32 35 = b

/-- R115: GET_STATUS, humidity first. -/
def Obligations.GetStatusClassifies : Prop :=
  (∀ x s, answersOnly (.getStatus x) s
    (if (rev s.ba 28 31 * 10 + rev s.ba 32 35 > 100 ∨ rev s.ba 28 31 * 10 + rev s.ba 32 35 < 10) ∧
        rev s.ba 28 31 * 10 + rev s.ba 32 35 ≠ 0 then 1#64
      else if ((rev s.ba 16 27 : Int) - 1220) * 5 < -3600 ∨ ((rev s.ba 16 27 : Int) - 1220) * 5 > 8100 then 2#64
      else 0#64)) ∧
  ∀ x : Operand, decodeWord (0x7#4 ++ x) = .getStatus x

/-- R116, R117: in terms of the values, humidity is valid at 0 and 10 to 100, and the temperature at raw values 500 to 2840;
status 3 is never answered (R57). -/
def Obligations.StatusRangesOfRawValues : Prop :=
  ∀ x s, ∃ v, answerOf (.getStatus x) s = some v ∧ v ≠ 3#64 ∧
    (v = 0#64 ↔ (humidity s.ba = 0 ∨ (10 ≤ humidity s.ba ∧ humidity s.ba ≤ 100)) ∧
      500 ≤ rev s.ba 16 27 ∧ rev s.ba 16 27 ≤ 2840) ∧
    (v = 1#64 ↔ (1 ≤ humidity s.ba ∧ humidity s.ba ≤ 9) ∨ (101 ≤ humidity s.ba ∧ humidity s.ba ≤ 165))

/-- R86: GET_PACKET. -/
def Obligations.GetPacketRespondsAccumulator : Prop :=
  (∀ x s, answersOnly (.getPacket x) s s.pv) ∧ ∀ x : Operand, decodeWord (0x8#4 ++ x) = .getPacket x

/-- R87: GET_BITS. -/
def Obligations.GetBitsRespondsCells : Prop :=
  (∀ x s, ∃ v, answersOnly (.getBits x) s v ∧ (∀ k, k ≤ 46 → v.getLsbD k = s.ba.getLsbD k) ∧
    ∀ k, 47 ≤ k → v.getLsbD k = false) ∧
  ∀ x : Operand, decodeWord (0x9#4 ++ x) = .getBits x

/-- R62, R45: CLASSIFY answers the symbol code of its operand, 0 to 4. -/
def Obligations.ClassifyRespondsSymbolCode : Prop :=
  (∀ d s, answersOnly (.classify d) s
    (match classify s.tOne s.tZero d with
      | .noise => 0#64
      | .zero => 1#64
      | .one => 2#64
      | .sync => 3#64
      | .head => 4#64)) ∧
  ∀ d : Duration, decodeWord (0xA#4 ++ d) = .classify d

/-- R92: CHKSUM answers accept in bit 0, the computed checksum in bits 7:4 and the transmitted one in bits 11:8; `BA`, `PV`,
`TBUF`, the sequencer and the thresholds stay. (Its working registers hold any value afterwards: log 7.) The transmitted
checksum is `rev(8, 11)` (R91), and accept is the equality of the two in all four bits (R95). -/
def Obligations.ChksumRespondsPackedResult : Prop :=
  (∀ x s, ∃ t, exec (.chksum x) s = .next t ∧ sameCore s t ∧
    answered ⟨BitVec.ofNat 64 ((checksum s.ba).accept.toNat + 16 * (checksum s.ba).acc.toNat + 256 * (checksum s.ba).tx.toNat),
      false⟩ s t) ∧
  (∀ x : Operand, decodeWord (0xB#4 ++ x) = .chksum x) ∧
  ∀ ba : BitArray, (checksum ba).tx.toNat = rev ba 8 11 ∧
    ((checksum ba).accept = true ↔ (checksum ba).acc = (checksum ba).tx)

/-- R55: each of the four reserved opcodes gets the illegal response and changes nothing. -/
def Obligations.ReservedOpcodesAnswerIllegal : Prop :=
  ∀ x s, answersIllegal (.reservedC x) s ∧ answersIllegal (.reservedD x) s ∧ answersIllegal (.reservedE x) s ∧
    answersIllegal (.reservedF x) s

/-- R130: every command but a legal DECODE leaves everything as it was, so the queries after it answer as if it had not
been issued. -/
def Obligations.OnlyLegalDecodeChangesPacket : Prop :=
  ∀ i s t, (∀ x, i = .decode x → i.wellFormed = false) → exec i s = .next t →
    sameCore s t ∧ ∀ j, (∀ x, j ≠ .decode x) → answerOf j t = answerOf j s

/-- R112: what the queries answer on a zero `BA`. -/
def Obligations.ZeroArrayAnswers : Prop :=
  ∀ x s, s.ba = 0#47 → answerOf (.getId x) s = some 0#64 ∧ answerOf (.getBattery x) s = some 1#64 ∧
    answerOf (.getChannel x) s = some 0#64 ∧ answerOf (.getTemperature x) s = some (BitVec.ofInt 64 (-6100)) ∧
    answerOf (.getHumidity x) s = some 0#64 ∧ answerOf (.getStatus x) s = some 2#64

/-- R47: two states that agree on the cells a reading command uses answer it alike. -/
def Obligations.QueriesReadOnlyTheirCells : Prop :=
  ∀ x s t,
    ((∀ k, k ≤ 7 → s.ba.getLsbD k = t.ba.getLsbD k) → answerOf (.getId x) s = answerOf (.getId x) t) ∧
    (s.ba.getLsbD 13 = t.ba.getLsbD 13 → answerOf (.getBattery x) s = answerOf (.getBattery x) t) ∧
    ((∀ k, 38 ≤ k → k ≤ 39 → s.ba.getLsbD k = t.ba.getLsbD k) → answerOf (.getChannel x) s = answerOf (.getChannel x) t) ∧
    ((∀ k, 16 ≤ k → k ≤ 27 → s.ba.getLsbD k = t.ba.getLsbD k) →
      answerOf (.getTemperature x) s = answerOf (.getTemperature x) t) ∧
    ((∀ k, 28 ≤ k → k ≤ 35 → s.ba.getLsbD k = t.ba.getLsbD k) → answerOf (.getHumidity x) s = answerOf (.getHumidity x) t) ∧
    ((∀ k, 16 ≤ k → k ≤ 35 → s.ba.getLsbD k = t.ba.getLsbD k) → answerOf (.getStatus x) s = answerOf (.getStatus x) t) ∧
    ((∀ k, k ≤ 39 → s.ba.getLsbD k = t.ba.getLsbD k) →
      answerOf (.chksum x) s = answerOf (.chksum x) t ∧ (checksum s.ba).accept = (checksum t.ba).accept) ∧
    ((∀ k, k ≤ 46 → s.ba.getLsbD k = t.ba.getLsbD k) → answerOf (.getBits x) s = answerOf (.getBits x) t)

/-! ### The sub-blocks -/

/-- R63 with the bands of R64: the priority chain, equality at every threshold and band end being outside. -/
def Obligations.ClassifyIsPriorityChain : Prop :=
  ∀ tOne tZero d, classify tOne tZero d =
    if 900 < d.toNat ∧ d.toNat < 1100 then .sync
    else if 7110 < d.toNat ∧ d.toNat < 8690 then .head
    else if tOne.toNat < d.toNat then .one
    else if tZero.toNat < d.toNat then .zero
    else .noise

/-- R66: the corner cases of the classifier. -/
def Obligations.ClassifyCornerCases : Prop :=
  ∀ tOne tZero : Duration,
    classify tOne tZero 0#16 = .noise ∧
    (∀ d : Duration, d.toNat = 900 ∨ d.toNat = 1100 ∨ d.toNat = 7110 ∨ d.toNat = 8690 →
      classify tOne tZero d =
        if tOne.toNat < d.toNat then .one else if tZero.toNat < d.toNat then .zero else .noise) ∧
    (∀ d : Duration, 901 ≤ d.toNat → d.toNat ≤ 1099 → classify tOne tZero d = .sync) ∧
    (∀ d : Duration, 7111 ≤ d.toNat → d.toNat ≤ 8689 → classify tOne tZero d = .head) ∧
    (∀ d : Duration, 8690 < d.toNat → tOne.toNat < d.toNat → classify tOne tZero d = .one) ∧
    (tOne.toNat ≤ tZero.toNat → ∀ d, classify tOne tZero d ≠ .zero) ∧
    (tZero.toNat = 65535 → tOne.toNat = 65535 → ∀ d, classify tOne tZero d ≠ .one ∧ classify tOne tZero d ≠ .zero)

/-- R101: `rev(lo, hi)` is the sum of the cells by rising weight; bit `k` of it is cell `lo + k`. -/
def Obligations.RevIsReversedRead : Prop :=
  ∀ (ba : BitArray) (lo hi : Nat), lo ≤ hi → hi ≤ 46 →
    rev ba lo hi = ∑ k ∈ Finset.range (hi - lo + 1), (if ba.getLsbD (lo + k) then 1 else 0) * 2 ^ k ∧
    rev ba lo hi < 2 ^ (hi - lo + 1) ∧
    ∀ k, k ≤ hi - lo → (rev ba lo hi).testBit k = ba.getLsbD (lo + k)

/-- R93: the reordered working copy. -/
def Obligations.ReorderedCopyOfCells : Prop :=
  ∀ ba : BitArray,
    (∀ j, j ≤ 7 → (reorder ba).getLsbD j = ba.getLsbD j) ∧
    (∀ j, j ≤ 3 → (reorder ba).getLsbD (8 + j) = ba.getLsbD (36 + j)) ∧
    ∀ j, j ≤ 23 → (reorder ba).getLsbD (12 + j) = ba.getLsbD (12 + j)

/-- R96: the mask in use at round `j` is `M[j mod 3]`, and the rounds of R94 compute the closed form, also by parities. -/
def Obligations.ChecksumClosedForm : Prop :=
  (∀ r j, j < 36 → feedback (ckRounds r j ckStart).mask = maskAt j) ∧
  ∀ ba, (checksum ba).acc = maskXor (reorder ba) 36 ∧
    ((checksum ba).acc = 0x0#4 ∨ (checksum ba).acc = 0x6#4 ∨ (checksum ba).acc = 0xA#4 ∨ (checksum ba).acc = 0xC#4) ∧
    (checksum ba).acc.getLsbD 3 = (parityAt (reorder ba) 0 ^^ parityAt (reorder ba) 2) ∧
    (checksum ba).acc.getLsbD 2 = (parityAt (reorder ba) 0 ^^ parityAt (reorder ba) 1) ∧
    (checksum ba).acc.getLsbD 1 = (parityAt (reorder ba) 1 ^^ parityAt (reorder ba) 2) ∧
    (checksum ba).acc.getLsbD 0 = false

/-- An array with no one among cells 0 to 39 is accepted with both checksums zero (first sentence of R97). -/
def Obligations.ZeroPayloadIsAccepted : Prop :=
  ∀ ba : BitArray, (∀ k, k ≤ 39 → ba.getLsbD k = false) → checksum ba = ⟨true, 0#4, 0#4⟩

/-- R98: what one flipped cell does to the check. -/
def Obligations.SingleCellFlips : Prop :=
  ∀ ba : BitArray,
    (∀ c, c ≤ 7 ∨ (12 ≤ c ∧ c ≤ 35) →
      (checksum (ba ^^^ BitVec.twoPow 47 c)).acc = (checksum ba).acc ^^^ maskAt c ∧
      (checksum (ba ^^^ BitVec.twoPow 47 c)).tx = (checksum ba).tx) ∧
    (∀ c, 36 ≤ c → c ≤ 39 →
      (checksum (ba ^^^ BitVec.twoPow 47 c)).acc = (checksum ba).acc ^^^ maskAt (c - 28) ∧
      (checksum (ba ^^^ BitVec.twoPow 47 c)).tx = (checksum ba).tx) ∧
    (∀ c, 8 ≤ c → c ≤ 11 →
      (checksum (ba ^^^ BitVec.twoPow 47 c)).acc = (checksum ba).acc ∧
      (checksum (ba ^^^ BitVec.twoPow 47 c)).tx = (checksum ba).tx ^^^ BitVec.twoPow 4 (c - 8)) ∧
    (∀ c, 40 ≤ c → c ≤ 46 → checksum (ba ^^^ BitVec.twoPow 47 c) = checksum ba) ∧
    (∀ j, maskAt j ≠ 0#4) ∧
    ∀ c, c ≤ 39 → (checksum ba).accept = true → (checksum (ba ^^^ BitVec.twoPow 47 c)).accept = false

/-- The weakness of the check (R99): a packet with `BA[8] = 1`, or with a transmitted value outside four, is never accepted;
two flips at positions equal modulo 3 cancel; of the sixteen values of cells 8 to 11 exactly one is accepted. -/
def Obligations.ChecksumWeaknesses : Prop :=
  (∀ ba : BitArray, ba.getLsbD 8 = true → (checksum ba).accept = false) ∧
  (∀ ba : BitArray, (checksum ba).accept = true →
    (checksum ba).tx = 0x0#4 ∨ (checksum ba).tx = 0x6#4 ∨ (checksum ba).tx = 0xA#4 ∨ (checksum ba).tx = 0xC#4) ∧
  (∀ (ba : BitArray) (a b : Nat), (a ≤ 7 ∨ (12 ≤ a ∧ a ≤ 39)) → (b ≤ 7 ∨ (12 ≤ b ∧ b ≤ 39)) →
    (if a < 36 then a else a - 28) % 3 = (if b < 36 then b else b - 28) % 3 →
    (checksum (ba ^^^ BitVec.twoPow 47 a ^^^ BitVec.twoPow 47 b)).accept = (checksum ba).accept) ∧
  ∀ ba : BitArray, ∃ v : Nibble, ∀ u : Nibble,
    (checksum ((ba &&& ~~~(0xF00#47)) ||| (u.zeroExtend 47 <<< 8))).accept = true ↔ u = v

/-- R79: CLEAR. -/
def Obligations.ClearZeroesPacket : Prop :=
  ∀ s, clear s = { s with phase := .clear, ba := 0#47, pv := 0#64 }

/-- R81, R82, R83: what one payload pulse does. The written cell is `i - offset`; beyond 46 the write is dropped and `PV` is
shifted all the same; any other pulse changes nothing. -/
def Obligations.PulseWritesCellAndShifts : Prop :=
  ∀ (s : State) (k : Nat), k = (s.i - s.offset).toNat →
    (pulse .one s).pv.toNat = (2 * s.pv.toNat + 1) % 2 ^ 64 ∧ (pulse .zero s).pv.toNat = (2 * s.pv.toNat) % 2 ^ 64 ∧
    (k ≤ 46 → (pulse .one s).ba.getLsbD k = true ∧ (pulse .zero s).ba.getLsbD k = false) ∧
    (∀ c, c ≠ k → (pulse .one s).ba.getLsbD c = s.ba.getLsbD c ∧ (pulse .zero s).ba.getLsbD c = s.ba.getLsbD c) ∧
    (47 ≤ k → (pulse .one s).ba = s.ba ∧ (pulse .zero s).ba = s.ba) ∧
    pulse .one s = { s with ba := (pulse .one s).ba, pv := (pulse .one s).pv } ∧
    pulse .zero s = { s with ba := (pulse .zero s).ba, pv := (pulse .zero s).pv } ∧
    pulse .noise s = s ∧ pulse .sync s = s ∧ pulse .head s = s

/-- R89: `BA` and `PV` after CLEAR and BITDEC, for every content of the entries and every length from 10 to 64. -/
def Obligations.BitdecClosedForm : Prop :=
  ∀ (n : Index) (s : State) (d : Nat → Duration), 10 ≤ n.toNat → n.toNat ≤ 64 → s.offset = 10#7 → hostDuty n.toNat d s →
    ∃ t, bitdec n (clear s) = .next t ∧
      (∀ k, k ≤ 46 → (t.ba.getLsbD k = true ↔ 10 + k < n.toNat ∧ symbolsOf s d (10 + k) = .one)) ∧
      t.pv = payloadValue n.toNat (symbolsOf s d) ∧ t.pv.toNat < 2 ^ 54

/-! ### The decode attempt -/

/-- R71: the first pulse of the run that is not SYNC ends the attempt at once; later entries are not looked at, so they need
not even be written. -/
def Obligations.BrokenSyncRunAborts : Prop :=
  ∀ (n : Index) (s : State) (k : Nat) (x : Symbol), 1 ≤ k → k ≤ 8 → k < n.toNat →
    (∀ l, 1 ≤ l → l < k → symbolAt s l = .next .sync) → symbolAt s k = .next x → x ≠ .sync →
    ∃ t, attempt n s = .next (t, .syncFail) ∧ t.ba = 0#47 ∧ t.pv = 0#64 ∧ t.i = 0#7 ∧ t.cnt = 0#4 ∧ t.offset = 0#7 ∧
      t.phase = .idle

/-- R72: the sequence ends before eight SYNC pulses. -/
def Obligations.ShortSyncRunAborts : Prop :=
  ∀ (n : Index) (s : State), n.toNat ≤ 8 → (∀ l, 1 ≤ l → l < n.toNat → symbolAt s l = .next .sync) →
    ∃ t, attempt n s = .next (t, .syncFail) ∧ t.ba = 0#47 ∧ t.pv = 0#64 ∧ t.i = 0#7 ∧ t.cnt = 0#4 ∧ t.offset = 0#7 ∧
      t.phase = .idle

/-- R73, R74: after eight SYNC pulses the entry 9 must exist and be HEAD. -/
def Obligations.MissingHeadAborts : Prop :=
  ∀ (n : Index) (s : State), 8 < n.toNat → (∀ l, 1 ≤ l → l ≤ 8 → symbolAt s l = .next .sync) →
    n.toNat = 9 ∨ (∃ x, symbolAt s 9 = .next x ∧ x ≠ .head) →
    ∃ t, attempt n s = .next (t, .headFail) ∧ t.ba = 0#47 ∧ t.pv = 0#64 ∧ t.i = 0#7 ∧ t.cnt = 0#4 ∧ t.offset = 0#7 ∧
      t.phase = .idle

/-- R127: a decode attempt is the function `decode(n, TBUF)`: the phases run step by step compute its closed form, outcome
label included, for every length 0 to 64 and every content of the entries. -/
def Obligations.AttemptIsClosedForm : Prop :=
  ∀ (n : Index) (s : State) (d : Nat → Duration), n.toNat ≤ 64 → hostDuty n.toNat d s →
    ∃ t, attempt n s = .next (t, (decodeClosed n.toNat (symbolsOf s d)).2.2) ∧
      t.ba = (decodeClosed n.toNat (symbolsOf s d)).1 ∧ t.pv = (decodeClosed n.toNat (symbolsOf s d)).2.1

/-- DECODE completes: with a legal operand and the host's duties met it runs one attempt, answers 0 whatever the outcome, and
leaves `BA` and `PV` as the closed form gives them, the transients at rest and everything else as it was (but for the working
registers `mask`, `acc`, `j` and the draw counter: log 7). -/
def Obligations.DecodeCompletes : Prop :=
  ∀ x s d, (Instr.decode x).wellFormed = true → hostDuty (x.toNat % 128) d s →
    ∃ t, exec (.decode x) s = .next t ∧ answered ⟨0#64, false⟩ s t ∧
      t.ba = (decodeClosed (x.toNat % 128) (symbolsOf s d)).1 ∧
      t.pv = (decodeClosed (x.toNat % 128) (symbolsOf s d)).2.1 ∧
      t.i = 0#7 ∧ t.cnt = 0#4 ∧ t.offset = 0#7 ∧ t.phase = .idle ∧ t.tOne = s.tOne ∧ t.tZero = s.tZero ∧
      t.inputs = s.inputs ∧ t.portWrites = s.portWrites ∧ ∀ k, Memory.read t.tbuf k = Memory.read s.tbuf k

/-- The frame of DECODE on every path that has a next state, also when the host writes meanwhile. -/
def Obligations.DecodeFrame : Prop :=
  ∀ x s t, exec (.decode x) s = .next t →
    (∃ b, answered ⟨0#64, b⟩ s t) ∧ t.tOne = s.tOne ∧ t.tZero = s.tZero ∧ t.inputs = s.inputs ∧
    t.portWrites = s.portWrites ∧ ∀ k, Memory.read t.tbuf k = Memory.read s.tbuf k

/-- R137: the end state of an attempt by its outcome, and of an illegal DECODE. -/
def Obligations.AttemptEndStates : Prop :=
  (∀ (n : Index) (s t : State) (o : AttemptOutcome), n.toNat ≤ 64 → attempt n s = .next (t, o) →
    t.i = 0#7 ∧ t.cnt = 0#4 ∧ t.offset = 0#7 ∧ t.phase = .idle ∧ (o ≠ .accept → t.ba = 0#47 ∧ t.pv = 0#64) ∧
    (o = .accept → (checksum t.ba).accept = true ∧ t.pv.toNat < 2 ^ 54 ∧
      ∀ f : Nat → Symbol, (∀ k, 10 ≤ k → k < n.toNat → symbolAt s k = .next (f k)) →
        t.ba = payloadBits n.toNat f ∧ t.pv = payloadValue n.toNat f)) ∧
  ∀ x s, (Instr.decode x).wellFormed = false → answersIllegal (.decode x) s

/-- R140: a non-zero `PV` or `BA` after a DECODE proves the outcome was ACCEPT; both zero prove nothing. -/
def Obligations.NonzeroPacketMeansAccepted : Prop :=
  (∀ (n : Index) (s t : State) (o : AttemptOutcome), n.toNat ≤ 64 → attempt n s = .next (t, o) →
    t.pv ≠ 0#64 ∨ t.ba ≠ 0#47 → o = .accept) ∧
  ∀ s : State, (∀ l, 1 ≤ l → l ≤ 8 → symbolAt s l = .next .sync) → symbolAt s 9 = .next .head →
    ∃ t, attempt 10#7 s = .next (t, .accept) ∧ t.pv = 0#64 ∧ t.ba = 0#47

/-- An attempt whose payload has no ONE pulse at all is accepted with a zero `BA` and `PV`, however long it is (R126; log 20 on
the words of that rule). -/
def Obligations.PayloadWithoutOnesIsAccepted : Prop :=
  ∀ (n : Index) (s : State) (d : Nat → Duration), 10 ≤ n.toNat → n.toNat ≤ 64 → hostDuty n.toNat d s →
    (∀ l, 1 ≤ l → l ≤ 8 → symbolsOf s d l = .sync) → symbolsOf s d 9 = .head →
    (∀ l, 10 ≤ l → l < n.toNat → symbolsOf s d l ≠ .one) →
    ∃ t, attempt n s = .next (t, .accept) ∧ t.ba = 0#47 ∧ t.pv = 0#64

/-- After an accepted attempt whose payload pulses are all ONE or ZERO and at most 47, `PV` holds the same bits as `BA`, the
first payload bit highest (R17). -/
def Obligations.CleanPayloadMirroredInAccumulator : Prop :=
  ∀ (n : Index) (s t : State) (d : Nat → Duration), 10 ≤ n.toNat → n.toNat ≤ 57 → hostDuty n.toNat d s →
    (∀ l, 10 ≤ l → l < n.toNat → symbolsOf s d l = .one ∨ symbolsOf s d l = .zero) →
    attempt n s = .next (t, .accept) →
    (∀ k, k < n.toNat - 10 → t.pv.getLsbD (n.toNat - 10 - 1 - k) = t.ba.getLsbD k) ∧
    ∀ k, n.toNat - 10 ≤ k → t.pv.getLsbD k = false

/-- R120: the result of an attempt depends on `n`, the entries 1 to `n - 1` and the thresholds only: neither the packet, the
transients or the working registers of before, nor entry 0, nor an entry from `n` up has any influence. -/
def Obligations.AttemptForgetsThePast : Prop :=
  ∀ (n : Index) (s s' t : State) (o : AttemptOutcome), n.toNat ≤ 64 → s.portWrites = [] → s'.portWrites = [] →
    s'.tOne = s.tOne → s'.tZero = s.tZero →
    (∀ k, 1 ≤ k → k < n.toNat → Memory.read s'.tbuf k = Memory.read s.tbuf k) →
    attempt n s = .next (t, o) → ∃ t', attempt n s' = .next (t', o) ∧ t'.ba = t.ba ∧ t'.pv = t.pv

/-- An entry that the scan reaches and the host has never written is refused (R32), whatever stands behind it: in the SYNC
run, at the HEAD, in the payload. -/
def Obligations.UnwrittenEntryIsRefused : Prop :=
  ∀ (x : Operand) (s : State) (k : Nat), (Instr.decode x).wellFormed = true → 1 ≤ k → k < x.toNat % 128 →
    Memory.read s.tbuf k = none → (∀ l, 1 ≤ l → l < k → ∃ y, symbolAt s l = .next y) →
    (∀ l, 1 ≤ l → l < k → l ≤ 8 → symbolAt s l = .next .sync) → (9 < k → symbolAt s 9 = .next .head) →
    exec (.decode x) s = .refused (.unwrittenEntry k)

/-- Host writes while a command runs (R153; R151: "draw any value for the entries written"). An entry the host leaves alone
reads as what it holds (R38), one it writes reads as a free value, not tied to the old or the new one (log 5). A DECODE whose
entries were written before still completes: it is the closed form over symbols that are those of the buffer at every entry
the host leaves alone. Any other command does not notice. -/
def Obligations.ConcurrentWriteFreesOnlyWrittenEntries : Prop :=
  (∀ (s : State) (k : Nat) (old : Duration), Memory.read s.tbuf k = some old →
    ((∀ w, w ∈ s.portWrites → w.addr.toNat ≠ k) → readEntry s k = .next old) ∧
    ((∃ w, w ∈ s.portWrites ∧ w.addr.toNat = k) → readEntry s k = .next (Config.tornValue s.draws k))) ∧
  (∀ (x : Operand) (s : State), (Instr.decode x).wellFormed = true →
    (∀ k, 1 ≤ k → k < x.toNat % 128 → ∃ d, Memory.read s.tbuf k = some d) →
    ∃ t f, exec (.decode x) s = .next t ∧ answered ⟨0#64, false⟩ s t ∧
      (∀ k d, 1 ≤ k → k < x.toNat % 128 → Memory.read s.tbuf k = some d →
        (∀ w, w ∈ s.portWrites → w.addr.toNat ≠ k) → f k = classify s.tOne s.tZero d) ∧
      t.ba = (decodeClosed (x.toNat % 128) f).1 ∧ t.pv = (decodeClosed (x.toNat % 128) f).2.1 ∧
      t.i = 0#7 ∧ t.cnt = 0#4 ∧ t.offset = 0#7 ∧ t.phase = .idle ∧ t.tOne = s.tOne ∧ t.tZero = s.tZero ∧
      t.inputs = s.inputs ∧ t.portWrites = s.portWrites ∧ ∀ k, Memory.read t.tbuf k = Memory.read s.tbuf k) ∧
  ∀ (i : Instr) (s : State) (during : List PortWrite), (∀ x, i ≠ .decode x) →
    ∃ t t', exec i { s with portWrites := [] } = .next t ∧ exec i { s with portWrites := during } = .next t' ∧
      t' = { t with portWrites := during }
end

