-- ==== Sys2Proof/Laws/Memory.lean ====
section
/-! SUPPORT. The laws of the timing buffer: read after write, and that every write keeps the canonical form. -/

namespace Sys2Proof.Machine

-- One theorem at a time: many small proofs at once need more threads than a bounded process has memory for.
set_option Elab.async false

@[simp] theorem read_nil (k : Nat) : Memory.read [] k = none := rfl

/-- A read after a write of the same entry gives the value written. -/
@[simp] theorem read_write_same (m : Memory) (k : Nat) (d : Duration) :
    Memory.read (Memory.write m k d) k = some d := by
  induction m with
  | nil => simp [Memory.write, Memory.read]
  | cons e rest ih =>
    obtain ⟨a, e⟩ := e
    simp only [Memory.write]
    split
    · simp [Memory.read]
    · split
      · simp [Memory.read]
      · next h => simp [Memory.read, Ne.symm h, ih]

/-- A write leaves every other entry alone. -/
theorem read_write_other (m : Memory) (k l : Nat) (d : Duration) (h : l ≠ k) :
    Memory.read (Memory.write m k d) l = Memory.read m l := by
  induction m with
  | nil => simp [Memory.write, Memory.read, Ne.symm h]
  | cons e rest ih =>
    obtain ⟨a, e⟩ := e
    simp only [Memory.write]
    split
    · simp [Memory.read, Ne.symm h]
    · split
      · next h' => subst h'; simp [Memory.read, Ne.symm h]
      · simp [Memory.read, ih]

/-- A write at an index of the buffer keeps the listed indices rising. -/
theorem risingFrom_write (m : Memory) (lo k : Nat) (d : Duration) (hk : k < Config.tbufDepth) (hlo : lo ≤ k)
    (h : Memory.risingFrom lo m = true) : Memory.risingFrom lo (Memory.write m k d) = true := by
  induction m generalizing lo with
  | nil => simp [Memory.write, Memory.risingFrom, hk, hlo]
  | cons e rest ih =>
    obtain ⟨a, e⟩ := e
    simp only [Memory.risingFrom, Bool.and_eq_true, decide_eq_true_eq] at h
    simp only [Memory.write]
    split
    · next hka => simp [Memory.risingFrom, hk, hlo, h.2, h.1.2]; omega
    · split
      · next hka => subst hka; simp [Memory.risingFrom, hk, hlo, h.2]
      · next h1 h2 => simp [Memory.risingFrom, h.1, ih (a + 1) (by omega) h.2]

theorem wf_write (m : Memory) (k : Nat) (d : Duration) (hk : k < Config.tbufDepth) (h : Memory.wf m = true) :
    Memory.wf (Memory.write m k d) = true :=
  risingFrom_write m 0 k d hk (Nat.zero_le k) h

/-- The port's writes keep the canonical form: `tb_addr` has 6 bits (R24). -/
theorem wf_portWrite (m : Memory) (w : PortWrite) (h : Memory.wf m = true) : Memory.wf (portWrite m w) = true :=
  wf_write m _ _ (by have := w.addr.isLt; simpa [Config.tbufDepth] using this) h

theorem wf_portWriteAll (ws : List PortWrite) (m : Memory) (h : Memory.wf m = true) :
    Memory.wf (portWriteAll m ws) = true := by
  induction ws generalizing m with
  | nil => exact h
  | cons w ws ih => exact ih (portWrite m w) (wf_portWrite m w h)

@[simp] theorem portWriteAll_nil (m : Memory) : portWriteAll m [] = m := rfl

theorem wf_reset : Memory.wf State.reset.tbuf = true := rfl

/-- A listed entry has an index of the buffer. -/
theorem read_lt (m : Memory) (lo k : Nat) (d : Duration) (h : Memory.risingFrom lo m = true)
    (hr : Memory.read m k = some d) : lo ≤ k ∧ k < Config.tbufDepth := by
  induction m generalizing lo with
  | nil => simp at hr
  | cons e rest ih =>
    obtain ⟨a, e⟩ := e
    simp only [Memory.risingFrom, Bool.and_eq_true, decide_eq_true_eq] at h
    simp only [Memory.read] at hr
    split at hr
    · next hak => subst hak; exact h.1
    · have := ih (a + 1) h.2 hr
      exact ⟨by omega, this.2⟩

/-- The buffer's contents decide the list: canonical buffers that read alike are equal. -/
theorem ext_of_read (m m' : Memory) (lo : Nat) (h : Memory.risingFrom lo m = true) (h' : Memory.risingFrom lo m' = true)
    (hr : ∀ k, Memory.read m k = Memory.read m' k) : m = m' := by
  induction m generalizing lo m' with
  | nil =>
    cases m' with
    | nil => rfl
    | cons e rest => have := hr e.1; simp [Memory.read] at this
  | cons e rest ih =>
    obtain ⟨a, e⟩ := e
    have ha := hr a
    simp only [Memory.read, if_true] at ha
    cases m' with
    | nil => simp [Memory.read] at ha
    | cons e' rest' =>
      obtain ⟨a', e'⟩ := e'
      simp only [Memory.risingFrom, Bool.and_eq_true, decide_eq_true_eq] at h h'
      have key : a = a' := by
        by_contra hne
        rcases Nat.lt_or_gt_of_ne hne with hlt | hgt
        · simp only [Memory.read, if_neg (Ne.symm hne)] at ha
          have := (read_lt rest' (a' + 1) a e h'.2 ha.symm).1
          omega
        · have hb := hr a'
          simp only [Memory.read, if_true, if_neg hne] at hb
          have := (read_lt rest (a + 1) a' e' h.2 hb).1
          omega
      subst key
      simp only [Memory.read, if_true, Option.some.injEq] at ha
      subst ha
      have hrest : rest = rest' := by
        refine ih rest' (a + 1) h.2 h'.2 fun k => ?_
        by_cases hk : a = k
        · subst hk
          have none_of (m : Memory) (hm : Memory.risingFrom (a + 1) m = true) : Memory.read m a = none := by
            cases hm' : Memory.read m a with
            | none => rfl
            | some d => have := (read_lt m (a + 1) a d hm hm').1; omega
          rw [none_of rest h.2, none_of rest' h'.2]
        · have := hr k
          simpa [Memory.read, hk] using this
      rw [hrest]

end Sys2Proof.Machine
end

