-- ==== Sys2Proof/Laws/State.lean ====
section
/-! SUPPORT. One lemma per field per update, each true by unfolding once, so that no later proof unfolds a record update. -/

namespace Sys2Proof.Machine

-- One theorem at a time: many small proofs at once need more threads than a bounded process has memory for.
set_option Elab.async false

@[simp] theorem zeroPacket_ba (s : State) : (zeroPacket s).ba = 0#47 := rfl
@[simp] theorem zeroPacket_pv (s : State) : (zeroPacket s).pv = 0#64 := rfl
@[simp] theorem zeroPacket_tOne (s : State) : (zeroPacket s).tOne = s.tOne := rfl
@[simp] theorem zeroPacket_tZero (s : State) : (zeroPacket s).tZero = s.tZero := rfl
@[simp] theorem zeroPacket_i (s : State) : (zeroPacket s).i = s.i := rfl
@[simp] theorem zeroPacket_cnt (s : State) : (zeroPacket s).cnt = s.cnt := rfl
@[simp] theorem zeroPacket_offset (s : State) : (zeroPacket s).offset = s.offset := rfl
@[simp] theorem zeroPacket_phase (s : State) : (zeroPacket s).phase = s.phase := rfl
@[simp] theorem zeroPacket_ck (s : State) : (zeroPacket s).ck = s.ck := rfl
@[simp] theorem zeroPacket_tbuf (s : State) : (zeroPacket s).tbuf = s.tbuf := rfl
@[simp] theorem zeroPacket_busy (s : State) : (zeroPacket s).busy = s.busy := rfl
@[simp] theorem zeroPacket_rsp (s : State) : (zeroPacket s).rsp = s.rsp := rfl
@[simp] theorem zeroPacket_inputs (s : State) : (zeroPacket s).inputs = s.inputs := rfl
@[simp] theorem zeroPacket_portWrites (s : State) : (zeroPacket s).portWrites = s.portWrites := rfl
@[simp] theorem zeroPacket_received (s : State) : (zeroPacket s).received = s.received := rfl
@[simp] theorem zeroPacket_draws (s : State) : (zeroPacket s).draws = s.draws := rfl

@[simp] theorem shiftIn_ba (b : Bool) (s : State) : (shiftIn b s).ba = s.ba := rfl
@[simp] theorem shiftIn_pv (b : Bool) (s : State) : (shiftIn b s).pv = (s.pv <<< 1) ||| (BitVec.ofBool b).zeroExtend 64 := rfl
@[simp] theorem shiftIn_tOne (b : Bool) (s : State) : (shiftIn b s).tOne = s.tOne := rfl
@[simp] theorem shiftIn_tZero (b : Bool) (s : State) : (shiftIn b s).tZero = s.tZero := rfl
@[simp] theorem shiftIn_i (b : Bool) (s : State) : (shiftIn b s).i = s.i := rfl
@[simp] theorem shiftIn_cnt (b : Bool) (s : State) : (shiftIn b s).cnt = s.cnt := rfl
@[simp] theorem shiftIn_offset (b : Bool) (s : State) : (shiftIn b s).offset = s.offset := rfl
@[simp] theorem shiftIn_phase (b : Bool) (s : State) : (shiftIn b s).phase = s.phase := rfl
@[simp] theorem shiftIn_ck (b : Bool) (s : State) : (shiftIn b s).ck = s.ck := rfl
@[simp] theorem shiftIn_tbuf (b : Bool) (s : State) : (shiftIn b s).tbuf = s.tbuf := rfl
@[simp] theorem shiftIn_busy (b : Bool) (s : State) : (shiftIn b s).busy = s.busy := rfl
@[simp] theorem shiftIn_rsp (b : Bool) (s : State) : (shiftIn b s).rsp = s.rsp := rfl
@[simp] theorem shiftIn_inputs (b : Bool) (s : State) : (shiftIn b s).inputs = s.inputs := rfl
@[simp] theorem shiftIn_portWrites (b : Bool) (s : State) : (shiftIn b s).portWrites = s.portWrites := rfl
@[simp] theorem shiftIn_received (b : Bool) (s : State) : (shiftIn b s).received = s.received := rfl
@[simp] theorem shiftIn_draws (b : Bool) (s : State) : (shiftIn b s).draws = s.draws := rfl

@[simp] theorem clear_ba (s : State) : (clear s).ba = 0#47 := rfl
@[simp] theorem clear_pv (s : State) : (clear s).pv = 0#64 := rfl
@[simp] theorem clear_tOne (s : State) : (clear s).tOne = s.tOne := rfl
@[simp] theorem clear_tZero (s : State) : (clear s).tZero = s.tZero := rfl
@[simp] theorem clear_i (s : State) : (clear s).i = s.i := rfl
@[simp] theorem clear_cnt (s : State) : (clear s).cnt = s.cnt := rfl
@[simp] theorem clear_offset (s : State) : (clear s).offset = s.offset := rfl
@[simp] theorem clear_phase (s : State) : (clear s).phase = .clear := rfl
@[simp] theorem clear_ck (s : State) : (clear s).ck = s.ck := rfl
@[simp] theorem clear_tbuf (s : State) : (clear s).tbuf = s.tbuf := rfl
@[simp] theorem clear_busy (s : State) : (clear s).busy = s.busy := rfl
@[simp] theorem clear_rsp (s : State) : (clear s).rsp = s.rsp := rfl
@[simp] theorem clear_inputs (s : State) : (clear s).inputs = s.inputs := rfl
@[simp] theorem clear_portWrites (s : State) : (clear s).portWrites = s.portWrites := rfl
@[simp] theorem clear_received (s : State) : (clear s).received = s.received := rfl
@[simp] theorem clear_draws (s : State) : (clear s).draws = s.draws := rfl

@[simp] theorem endAttempt_ba (s : State) : (endAttempt s).ba = s.ba := rfl
@[simp] theorem endAttempt_pv (s : State) : (endAttempt s).pv = s.pv := rfl
@[simp] theorem endAttempt_tOne (s : State) : (endAttempt s).tOne = s.tOne := rfl
@[simp] theorem endAttempt_tZero (s : State) : (endAttempt s).tZero = s.tZero := rfl
@[simp] theorem endAttempt_i (s : State) : (endAttempt s).i = 0#7 := rfl
@[simp] theorem endAttempt_cnt (s : State) : (endAttempt s).cnt = 0#4 := rfl
@[simp] theorem endAttempt_offset (s : State) : (endAttempt s).offset = 0#7 := rfl
@[simp] theorem endAttempt_phase (s : State) : (endAttempt s).phase = .idle := rfl
@[simp] theorem endAttempt_ck (s : State) : (endAttempt s).ck = s.ck := rfl
@[simp] theorem endAttempt_tbuf (s : State) : (endAttempt s).tbuf = s.tbuf := rfl
@[simp] theorem endAttempt_busy (s : State) : (endAttempt s).busy = s.busy := rfl
@[simp] theorem endAttempt_rsp (s : State) : (endAttempt s).rsp = s.rsp := rfl
@[simp] theorem endAttempt_inputs (s : State) : (endAttempt s).inputs = s.inputs := rfl
@[simp] theorem endAttempt_portWrites (s : State) : (endAttempt s).portWrites = s.portWrites := rfl
@[simp] theorem endAttempt_received (s : State) : (endAttempt s).received = s.received := rfl
@[simp] theorem endAttempt_draws (s : State) : (endAttempt s).draws = s.draws + 1 := rfl

@[simp] theorem evaluate_ba (s : State) : (evaluate s).ba = s.ba := rfl
@[simp] theorem evaluate_pv (s : State) : (evaluate s).pv = s.pv := rfl
@[simp] theorem evaluate_tOne (s : State) : (evaluate s).tOne = s.tOne := rfl
@[simp] theorem evaluate_tZero (s : State) : (evaluate s).tZero = s.tZero := rfl
@[simp] theorem evaluate_i (s : State) : (evaluate s).i = s.i := rfl
@[simp] theorem evaluate_cnt (s : State) : (evaluate s).cnt = s.cnt := rfl
@[simp] theorem evaluate_offset (s : State) : (evaluate s).offset = s.offset := rfl
@[simp] theorem evaluate_phase (s : State) : (evaluate s).phase = s.phase := rfl
@[simp] theorem evaluate_ck (s : State) : (evaluate s).ck = ckFinal s.ba := rfl
@[simp] theorem evaluate_tbuf (s : State) : (evaluate s).tbuf = s.tbuf := rfl
@[simp] theorem evaluate_busy (s : State) : (evaluate s).busy = s.busy := rfl
@[simp] theorem evaluate_rsp (s : State) : (evaluate s).rsp = s.rsp := rfl
@[simp] theorem evaluate_inputs (s : State) : (evaluate s).inputs = s.inputs := rfl
@[simp] theorem evaluate_portWrites (s : State) : (evaluate s).portWrites = s.portWrites := rfl
@[simp] theorem evaluate_received (s : State) : (evaluate s).received = s.received := rfl
@[simp] theorem evaluate_draws (s : State) : (evaluate s).draws = s.draws := rfl

@[simp] theorem forgetWorking_ba (s : State) : (forgetWorking s).ba = s.ba := rfl
@[simp] theorem forgetWorking_pv (s : State) : (forgetWorking s).pv = s.pv := rfl
@[simp] theorem forgetWorking_tOne (s : State) : (forgetWorking s).tOne = s.tOne := rfl
@[simp] theorem forgetWorking_tZero (s : State) : (forgetWorking s).tZero = s.tZero := rfl
@[simp] theorem forgetWorking_i (s : State) : (forgetWorking s).i = s.i := rfl
@[simp] theorem forgetWorking_cnt (s : State) : (forgetWorking s).cnt = s.cnt := rfl
@[simp] theorem forgetWorking_offset (s : State) : (forgetWorking s).offset = s.offset := rfl
@[simp] theorem forgetWorking_phase (s : State) : (forgetWorking s).phase = s.phase := rfl
@[simp] theorem forgetWorking_ck (s : State) : (forgetWorking s).ck = ⟨Config.idleMask s.draws, Config.idleAcc s.draws, Config.idleJ s.draws⟩ := rfl
@[simp] theorem forgetWorking_tbuf (s : State) : (forgetWorking s).tbuf = s.tbuf := rfl
@[simp] theorem forgetWorking_busy (s : State) : (forgetWorking s).busy = s.busy := rfl
@[simp] theorem forgetWorking_rsp (s : State) : (forgetWorking s).rsp = s.rsp := rfl
@[simp] theorem forgetWorking_inputs (s : State) : (forgetWorking s).inputs = s.inputs := rfl
@[simp] theorem forgetWorking_portWrites (s : State) : (forgetWorking s).portWrites = s.portWrites := rfl
@[simp] theorem forgetWorking_received (s : State) : (forgetWorking s).received = s.received := rfl
@[simp] theorem forgetWorking_draws (s : State) : (forgetWorking s).draws = s.draws + 1 := rfl

@[simp] theorem accept_ba (rest : List HostAction) (during : List PortWrite) (s : State) : (accept rest during s).ba = s.ba := rfl
@[simp] theorem accept_pv (rest : List HostAction) (during : List PortWrite) (s : State) : (accept rest during s).pv = s.pv := rfl
@[simp] theorem accept_tOne (rest : List HostAction) (during : List PortWrite) (s : State) : (accept rest during s).tOne = s.tOne := rfl
@[simp] theorem accept_tZero (rest : List HostAction) (during : List PortWrite) (s : State) : (accept rest during s).tZero = s.tZero := rfl
@[simp] theorem accept_i (rest : List HostAction) (during : List PortWrite) (s : State) : (accept rest during s).i = s.i := rfl
@[simp] theorem accept_cnt (rest : List HostAction) (during : List PortWrite) (s : State) : (accept rest during s).cnt = s.cnt := rfl
@[simp] theorem accept_offset (rest : List HostAction) (during : List PortWrite) (s : State) : (accept rest during s).offset = s.offset := rfl
@[simp] theorem accept_phase (rest : List HostAction) (during : List PortWrite) (s : State) : (accept rest during s).phase = s.phase := rfl
@[simp] theorem accept_ck (rest : List HostAction) (during : List PortWrite) (s : State) : (accept rest during s).ck = s.ck := rfl
@[simp] theorem accept_tbuf (rest : List HostAction) (during : List PortWrite) (s : State) : (accept rest during s).tbuf = s.tbuf := rfl
@[simp] theorem accept_busy (rest : List HostAction) (during : List PortWrite) (s : State) : (accept rest during s).busy = true := rfl
@[simp] theorem accept_rsp (rest : List HostAction) (during : List PortWrite) (s : State) : (accept rest during s).rsp = none := rfl
@[simp] theorem accept_inputs (rest : List HostAction) (during : List PortWrite) (s : State) : (accept rest during s).inputs = rest := rfl
@[simp] theorem accept_portWrites (rest : List HostAction) (during : List PortWrite) (s : State) : (accept rest during s).portWrites = during := rfl
@[simp] theorem accept_received (rest : List HostAction) (during : List PortWrite) (s : State) : (accept rest during s).received = s.received := rfl
@[simp] theorem accept_draws (rest : List HostAction) (during : List PortWrite) (s : State) : (accept rest during s).draws = s.draws := rfl

@[simp] theorem answer_ba (r : Response) (s : State) : (answer r s).ba = s.ba := rfl
@[simp] theorem answer_pv (r : Response) (s : State) : (answer r s).pv = s.pv := rfl
@[simp] theorem answer_tOne (r : Response) (s : State) : (answer r s).tOne = s.tOne := rfl
@[simp] theorem answer_tZero (r : Response) (s : State) : (answer r s).tZero = s.tZero := rfl
@[simp] theorem answer_i (r : Response) (s : State) : (answer r s).i = s.i := rfl
@[simp] theorem answer_cnt (r : Response) (s : State) : (answer r s).cnt = s.cnt := rfl
@[simp] theorem answer_offset (r : Response) (s : State) : (answer r s).offset = s.offset := rfl
@[simp] theorem answer_phase (r : Response) (s : State) : (answer r s).phase = s.phase := rfl
@[simp] theorem answer_ck (r : Response) (s : State) : (answer r s).ck = s.ck := rfl
@[simp] theorem answer_tbuf (r : Response) (s : State) : (answer r s).tbuf = s.tbuf := rfl
@[simp] theorem answer_busy (r : Response) (s : State) : (answer r s).busy = false := rfl
@[simp] theorem answer_rsp (r : Response) (s : State) : (answer r s).rsp = some r := rfl
@[simp] theorem answer_inputs (r : Response) (s : State) : (answer r s).inputs = s.inputs := rfl
@[simp] theorem answer_portWrites (r : Response) (s : State) : (answer r s).portWrites = s.portWrites := rfl
@[simp] theorem answer_received (r : Response) (s : State) : (answer r s).received = s.received ++ [r] := rfl
@[simp] theorem answer_draws (r : Response) (s : State) : (answer r s).draws = s.draws := rfl

@[simp] theorem respond_ba (v : RspData) (s : State) : (respond v s).ba = s.ba := rfl
@[simp] theorem respond_pv (v : RspData) (s : State) : (respond v s).pv = s.pv := rfl
@[simp] theorem respond_tOne (v : RspData) (s : State) : (respond v s).tOne = s.tOne := rfl
@[simp] theorem respond_tZero (v : RspData) (s : State) : (respond v s).tZero = s.tZero := rfl
@[simp] theorem respond_i (v : RspData) (s : State) : (respond v s).i = s.i := rfl
@[simp] theorem respond_cnt (v : RspData) (s : State) : (respond v s).cnt = s.cnt := rfl
@[simp] theorem respond_offset (v : RspData) (s : State) : (respond v s).offset = s.offset := rfl
@[simp] theorem respond_phase (v : RspData) (s : State) : (respond v s).phase = s.phase := rfl
@[simp] theorem respond_ck (v : RspData) (s : State) : (respond v s).ck = s.ck := rfl
@[simp] theorem respond_tbuf (v : RspData) (s : State) : (respond v s).tbuf = s.tbuf := rfl
@[simp] theorem respond_busy (v : RspData) (s : State) : (respond v s).busy = false := rfl
@[simp] theorem respond_rsp (v : RspData) (s : State) : (respond v s).rsp = some ⟨v, false⟩ := rfl
@[simp] theorem respond_inputs (v : RspData) (s : State) : (respond v s).inputs = s.inputs := rfl
@[simp] theorem respond_portWrites (v : RspData) (s : State) : (respond v s).portWrites = s.portWrites := rfl
@[simp] theorem respond_received (v : RspData) (s : State) : (respond v s).received = s.received ++ [⟨v, false⟩] := rfl
@[simp] theorem respond_draws (v : RspData) (s : State) : (respond v s).draws = s.draws := rfl

@[simp] theorem respondIllegal_ba (s : State) : (respondIllegal s).ba = s.ba := rfl
@[simp] theorem respondIllegal_pv (s : State) : (respondIllegal s).pv = s.pv := rfl
@[simp] theorem respondIllegal_tOne (s : State) : (respondIllegal s).tOne = s.tOne := rfl
@[simp] theorem respondIllegal_tZero (s : State) : (respondIllegal s).tZero = s.tZero := rfl
@[simp] theorem respondIllegal_i (s : State) : (respondIllegal s).i = s.i := rfl
@[simp] theorem respondIllegal_cnt (s : State) : (respondIllegal s).cnt = s.cnt := rfl
@[simp] theorem respondIllegal_offset (s : State) : (respondIllegal s).offset = s.offset := rfl
@[simp] theorem respondIllegal_phase (s : State) : (respondIllegal s).phase = s.phase := rfl
@[simp] theorem respondIllegal_ck (s : State) : (respondIllegal s).ck = s.ck := rfl
@[simp] theorem respondIllegal_tbuf (s : State) : (respondIllegal s).tbuf = s.tbuf := rfl
@[simp] theorem respondIllegal_busy (s : State) : (respondIllegal s).busy = false := rfl
@[simp] theorem respondIllegal_rsp (s : State) : (respondIllegal s).rsp = some ⟨0#64, true⟩ := rfl
@[simp] theorem respondIllegal_inputs (s : State) : (respondIllegal s).inputs = s.inputs := rfl
@[simp] theorem respondIllegal_portWrites (s : State) : (respondIllegal s).portWrites = s.portWrites := rfl
@[simp] theorem respondIllegal_received (s : State) : (respondIllegal s).received = s.received ++ [⟨0#64, true⟩] := rfl
@[simp] theorem respondIllegal_draws (s : State) : (respondIllegal s).draws = s.draws := rfl

@[simp] theorem settle_ba (s : State) : (settle s).ba = s.ba := rfl
@[simp] theorem settle_pv (s : State) : (settle s).pv = s.pv := rfl
@[simp] theorem settle_tOne (s : State) : (settle s).tOne = s.tOne := rfl
@[simp] theorem settle_tZero (s : State) : (settle s).tZero = s.tZero := rfl
@[simp] theorem settle_i (s : State) : (settle s).i = s.i := rfl
@[simp] theorem settle_cnt (s : State) : (settle s).cnt = s.cnt := rfl
@[simp] theorem settle_offset (s : State) : (settle s).offset = s.offset := rfl
@[simp] theorem settle_phase (s : State) : (settle s).phase = s.phase := rfl
@[simp] theorem settle_ck (s : State) : (settle s).ck = s.ck := rfl
@[simp] theorem settle_tbuf (s : State) : (settle s).tbuf = portWriteAll s.tbuf s.portWrites := rfl
@[simp] theorem settle_busy (s : State) : (settle s).busy = s.busy := rfl
@[simp] theorem settle_rsp (s : State) : (settle s).rsp = s.rsp := rfl
@[simp] theorem settle_inputs (s : State) : (settle s).inputs = s.inputs := rfl
@[simp] theorem settle_portWrites (s : State) : (settle s).portWrites = [] := rfl
@[simp] theorem settle_received (s : State) : (settle s).received = s.received := rfl
@[simp] theorem settle_draws (s : State) : (settle s).draws = s.draws := rfl

@[simp] theorem hostWrite_ba (w : PortWrite) (rest : List HostAction) (s : State) : (hostWrite w rest s).ba = s.ba := rfl
@[simp] theorem hostWrite_pv (w : PortWrite) (rest : List HostAction) (s : State) : (hostWrite w rest s).pv = s.pv := rfl
@[simp] theorem hostWrite_tOne (w : PortWrite) (rest : List HostAction) (s : State) : (hostWrite w rest s).tOne = s.tOne := rfl
@[simp] theorem hostWrite_tZero (w : PortWrite) (rest : List HostAction) (s : State) : (hostWrite w rest s).tZero = s.tZero := rfl
@[simp] theorem hostWrite_i (w : PortWrite) (rest : List HostAction) (s : State) : (hostWrite w rest s).i = s.i := rfl
@[simp] theorem hostWrite_cnt (w : PortWrite) (rest : List HostAction) (s : State) : (hostWrite w rest s).cnt = s.cnt := rfl
@[simp] theorem hostWrite_offset (w : PortWrite) (rest : List HostAction) (s : State) : (hostWrite w rest s).offset = s.offset := rfl
@[simp] theorem hostWrite_phase (w : PortWrite) (rest : List HostAction) (s : State) : (hostWrite w rest s).phase = s.phase := rfl
@[simp] theorem hostWrite_ck (w : PortWrite) (rest : List HostAction) (s : State) : (hostWrite w rest s).ck = s.ck := rfl
@[simp] theorem hostWrite_tbuf (w : PortWrite) (rest : List HostAction) (s : State) : (hostWrite w rest s).tbuf = portWrite s.tbuf w := rfl
@[simp] theorem hostWrite_busy (w : PortWrite) (rest : List HostAction) (s : State) : (hostWrite w rest s).busy = s.busy := rfl
@[simp] theorem hostWrite_rsp (w : PortWrite) (rest : List HostAction) (s : State) : (hostWrite w rest s).rsp = none := rfl
@[simp] theorem hostWrite_inputs (w : PortWrite) (rest : List HostAction) (s : State) : (hostWrite w rest s).inputs = rest := rfl
@[simp] theorem hostWrite_portWrites (w : PortWrite) (rest : List HostAction) (s : State) : (hostWrite w rest s).portWrites = s.portWrites := rfl
@[simp] theorem hostWrite_received (w : PortWrite) (rest : List HostAction) (s : State) : (hostWrite w rest s).received = s.received := rfl
@[simp] theorem hostWrite_draws (w : PortWrite) (rest : List HostAction) (s : State) : (hostWrite w rest s).draws = s.draws := rfl

@[simp] theorem applyReset_ba (rest : List HostAction) (s : State) : (applyReset rest s).ba = 0#47 := rfl
@[simp] theorem applyReset_pv (rest : List HostAction) (s : State) : (applyReset rest s).pv = 0#64 := rfl
@[simp] theorem applyReset_tOne (rest : List HostAction) (s : State) : (applyReset rest s).tOne = s.tOne := rfl
@[simp] theorem applyReset_tZero (rest : List HostAction) (s : State) : (applyReset rest s).tZero = s.tZero := rfl
@[simp] theorem applyReset_i (rest : List HostAction) (s : State) : (applyReset rest s).i = 0#7 := rfl
@[simp] theorem applyReset_cnt (rest : List HostAction) (s : State) : (applyReset rest s).cnt = 0#4 := rfl
@[simp] theorem applyReset_offset (rest : List HostAction) (s : State) : (applyReset rest s).offset = 0#7 := rfl
@[simp] theorem applyReset_phase (rest : List HostAction) (s : State) : (applyReset rest s).phase = .idle := rfl
@[simp] theorem applyReset_ck (rest : List HostAction) (s : State) : (applyReset rest s).ck = ⟨0#4, 0#4, 0#6⟩ := rfl
@[simp] theorem applyReset_tbuf (rest : List HostAction) (s : State) : (applyReset rest s).tbuf = s.tbuf := rfl
@[simp] theorem applyReset_busy (rest : List HostAction) (s : State) : (applyReset rest s).busy = false := rfl
@[simp] theorem applyReset_rsp (rest : List HostAction) (s : State) : (applyReset rest s).rsp = none := rfl
@[simp] theorem applyReset_inputs (rest : List HostAction) (s : State) : (applyReset rest s).inputs = rest := rfl
@[simp] theorem applyReset_portWrites (rest : List HostAction) (s : State) : (applyReset rest s).portWrites = [] := rfl
@[simp] theorem applyReset_received (rest : List HostAction) (s : State) : (applyReset rest s).received = s.received := rfl
@[simp] theorem applyReset_draws (rest : List HostAction) (s : State) : (applyReset rest s).draws = s.draws := rfl

@[simp] theorem abandon_ba (rest : List HostAction) (during : List PortWrite) (s : State) : (abandon rest during s).ba = 0#47 := rfl
@[simp] theorem abandon_pv (rest : List HostAction) (during : List PortWrite) (s : State) : (abandon rest during s).pv = 0#64 := rfl
@[simp] theorem abandon_tOne (rest : List HostAction) (during : List PortWrite) (s : State) : (abandon rest during s).tOne = s.tOne := rfl
@[simp] theorem abandon_tZero (rest : List HostAction) (during : List PortWrite) (s : State) : (abandon rest during s).tZero = s.tZero := rfl
@[simp] theorem abandon_i (rest : List HostAction) (during : List PortWrite) (s : State) : (abandon rest during s).i = 0#7 := rfl
@[simp] theorem abandon_cnt (rest : List HostAction) (during : List PortWrite) (s : State) : (abandon rest during s).cnt = 0#4 := rfl
@[simp] theorem abandon_offset (rest : List HostAction) (during : List PortWrite) (s : State) : (abandon rest during s).offset = 0#7 := rfl
@[simp] theorem abandon_phase (rest : List HostAction) (during : List PortWrite) (s : State) : (abandon rest during s).phase = .idle := rfl
@[simp] theorem abandon_ck (rest : List HostAction) (during : List PortWrite) (s : State) : (abandon rest during s).ck = ⟨0#4, 0#4, 0#6⟩ := rfl
@[simp] theorem abandon_tbuf (rest : List HostAction) (during : List PortWrite) (s : State) : (abandon rest during s).tbuf = portWriteAll s.tbuf during := rfl
@[simp] theorem abandon_busy (rest : List HostAction) (during : List PortWrite) (s : State) : (abandon rest during s).busy = false := rfl
@[simp] theorem abandon_rsp (rest : List HostAction) (during : List PortWrite) (s : State) : (abandon rest during s).rsp = none := rfl
@[simp] theorem abandon_inputs (rest : List HostAction) (during : List PortWrite) (s : State) : (abandon rest during s).inputs = rest := rfl
@[simp] theorem abandon_portWrites (rest : List HostAction) (during : List PortWrite) (s : State) : (abandon rest during s).portWrites = [] := rfl
@[simp] theorem abandon_received (rest : List HostAction) (during : List PortWrite) (s : State) : (abandon rest during s).received = s.received := rfl
@[simp] theorem abandon_draws (rest : List HostAction) (during : List PortWrite) (s : State) : (abandon rest during s).draws = s.draws := rfl

@[simp] theorem wait_ba (s : State) : (wait s).ba = s.ba := rfl
@[simp] theorem wait_pv (s : State) : (wait s).pv = s.pv := rfl
@[simp] theorem wait_tOne (s : State) : (wait s).tOne = s.tOne := rfl
@[simp] theorem wait_tZero (s : State) : (wait s).tZero = s.tZero := rfl
@[simp] theorem wait_i (s : State) : (wait s).i = s.i := rfl
@[simp] theorem wait_cnt (s : State) : (wait s).cnt = s.cnt := rfl
@[simp] theorem wait_offset (s : State) : (wait s).offset = s.offset := rfl
@[simp] theorem wait_phase (s : State) : (wait s).phase = s.phase := rfl
@[simp] theorem wait_ck (s : State) : (wait s).ck = s.ck := rfl
@[simp] theorem wait_tbuf (s : State) : (wait s).tbuf = s.tbuf := rfl
@[simp] theorem wait_busy (s : State) : (wait s).busy = s.busy := rfl
@[simp] theorem wait_rsp (s : State) : (wait s).rsp = none := rfl
@[simp] theorem wait_inputs (s : State) : (wait s).inputs = s.inputs := rfl
@[simp] theorem wait_portWrites (s : State) : (wait s).portWrites = s.portWrites := rfl
@[simp] theorem wait_received (s : State) : (wait s).received = s.received := rfl
@[simp] theorem wait_draws (s : State) : (wait s).draws = s.draws := rfl

theorem writeCell_ba (k : Nat) (b : Bool) (s : State) :
    (writeCell k b s).ba = if k < Config.packetSize then setCell s.ba k b else s.ba := by
  unfold writeCell; split <;> rfl
@[simp] theorem writeCell_pv (k : Nat) (b : Bool) (s : State) : (writeCell k b s).pv = s.pv := by unfold writeCell; split <;> rfl
@[simp] theorem writeCell_tOne (k : Nat) (b : Bool) (s : State) : (writeCell k b s).tOne = s.tOne := by unfold writeCell; split <;> rfl
@[simp] theorem writeCell_tZero (k : Nat) (b : Bool) (s : State) : (writeCell k b s).tZero = s.tZero := by unfold writeCell; split <;> rfl
@[simp] theorem writeCell_i (k : Nat) (b : Bool) (s : State) : (writeCell k b s).i = s.i := by unfold writeCell; split <;> rfl
@[simp] theorem writeCell_cnt (k : Nat) (b : Bool) (s : State) : (writeCell k b s).cnt = s.cnt := by unfold writeCell; split <;> rfl
@[simp] theorem writeCell_offset (k : Nat) (b : Bool) (s : State) : (writeCell k b s).offset = s.offset := by unfold writeCell; split <;> rfl
@[simp] theorem writeCell_phase (k : Nat) (b : Bool) (s : State) : (writeCell k b s).phase = s.phase := by unfold writeCell; split <;> rfl
@[simp] theorem writeCell_ck (k : Nat) (b : Bool) (s : State) : (writeCell k b s).ck = s.ck := by unfold writeCell; split <;> rfl
@[simp] theorem writeCell_tbuf (k : Nat) (b : Bool) (s : State) : (writeCell k b s).tbuf = s.tbuf := by unfold writeCell; split <;> rfl
@[simp] theorem writeCell_busy (k : Nat) (b : Bool) (s : State) : (writeCell k b s).busy = s.busy := by unfold writeCell; split <;> rfl
@[simp] theorem writeCell_rsp (k : Nat) (b : Bool) (s : State) : (writeCell k b s).rsp = s.rsp := by unfold writeCell; split <;> rfl
@[simp] theorem writeCell_inputs (k : Nat) (b : Bool) (s : State) : (writeCell k b s).inputs = s.inputs := by unfold writeCell; split <;> rfl
@[simp] theorem writeCell_portWrites (k : Nat) (b : Bool) (s : State) : (writeCell k b s).portWrites = s.portWrites := by unfold writeCell; split <;> rfl
@[simp] theorem writeCell_received (k : Nat) (b : Bool) (s : State) : (writeCell k b s).received = s.received := by unfold writeCell; split <;> rfl
@[simp] theorem writeCell_draws (k : Nat) (b : Bool) (s : State) : (writeCell k b s).draws = s.draws := by unfold writeCell; split <;> rfl

@[simp] theorem pulse_tOne (x : Symbol) (s : State) : (pulse x s).tOne = s.tOne := by cases x <;> simp [pulse]
@[simp] theorem pulse_tZero (x : Symbol) (s : State) : (pulse x s).tZero = s.tZero := by cases x <;> simp [pulse]
@[simp] theorem pulse_i (x : Symbol) (s : State) : (pulse x s).i = s.i := by cases x <;> simp [pulse]
@[simp] theorem pulse_cnt (x : Symbol) (s : State) : (pulse x s).cnt = s.cnt := by cases x <;> simp [pulse]
@[simp] theorem pulse_offset (x : Symbol) (s : State) : (pulse x s).offset = s.offset := by cases x <;> simp [pulse]
@[simp] theorem pulse_phase (x : Symbol) (s : State) : (pulse x s).phase = s.phase := by cases x <;> simp [pulse]
@[simp] theorem pulse_ck (x : Symbol) (s : State) : (pulse x s).ck = s.ck := by cases x <;> simp [pulse]
@[simp] theorem pulse_tbuf (x : Symbol) (s : State) : (pulse x s).tbuf = s.tbuf := by cases x <;> simp [pulse]
@[simp] theorem pulse_busy (x : Symbol) (s : State) : (pulse x s).busy = s.busy := by cases x <;> simp [pulse]
@[simp] theorem pulse_rsp (x : Symbol) (s : State) : (pulse x s).rsp = s.rsp := by cases x <;> simp [pulse]
@[simp] theorem pulse_inputs (x : Symbol) (s : State) : (pulse x s).inputs = s.inputs := by cases x <;> simp [pulse]
@[simp] theorem pulse_portWrites (x : Symbol) (s : State) : (pulse x s).portWrites = s.portWrites := by cases x <;> simp [pulse]
@[simp] theorem pulse_received (x : Symbol) (s : State) : (pulse x s).received = s.received := by cases x <;> simp [pulse]
@[simp] theorem pulse_draws (x : Symbol) (s : State) : (pulse x s).draws = s.draws := by cases x <;> simp [pulse]

end Sys2Proof.Machine
end

