-- ==== Sys2Proof/Laws/Ops.lean ====
section
/-! SUPPORT. One lemma per shared operation that says once what it can do: chaining, the register file, reading an entry and
its symbol, and the micro-operations of a decode attempt. -/

namespace Sys2Proof.Machine

/-! ### Chaining outcomes -/

@[simp] theorem andThen_next {α β : Type} (a : α) (f : α → Host.Outcome β Fault Refusal) :
    andThen (.next a) f = f a := rfl

@[simp] theorem andThen_fault {α β : Type} (r : Fault) (f : α → Host.Outcome β Fault Refusal) :
    andThen (.fault r) f = .fault r := rfl

@[simp] theorem andThen_refused {α β : Type} (r : Refusal) (f : α → Host.Outcome β Fault Refusal) :
    andThen (.refused r) f = .refused r := rfl

theorem andThen_eq_next {α β : Type} {o : Host.Outcome α Fault Refusal} {f : α → Host.Outcome β Fault Refusal} {b : β}
    (h : andThen o f = .next b) : ∃ a, o = .next a ∧ f a = .next b := by
  cases o with
  | next a => exact ⟨a, rfl, h⟩
  | fault r => cases h
  | refused r => cases h

theorem andThen_eq_fault {α β : Type} {o : Host.Outcome α Fault Refusal} {f : α → Host.Outcome β Fault Refusal} {r : Fault}
    (h : andThen o f = .fault r) : o = .fault r ∨ ∃ a, o = .next a ∧ f a = .fault r := by
  cases o with
  | next a => exact .inr ⟨a, rfl, h⟩
  | fault r => cases h; exact .inl rfl
  | refused r => cases h

theorem andThen_eq_refused {α β : Type} {o : Host.Outcome α Fault Refusal} {f : α → Host.Outcome β Fault Refusal}
    {r : Refusal} (h : andThen o f = .refused r) : o = .refused r ∨ ∃ a, o = .next a ∧ f a = .refused r := by
  cases o with
  | next a => exact .inr ⟨a, rfl, h⟩
  | fault r => cases h
  | refused r => cases h; exact .inl rfl

/-! ### The register file -/

theorem getLsbD_setCell (ba : BitArray) (k c : Nat) (b : Bool) (hk : k < 47) :
    (setCell ba k b).getLsbD c = if c = k then b else ba.getLsbD c := by
  by_cases hc : c < 47
  · unfold setCell
    cases b
    · simp [hc, eq_comm, Bool.and_comm]
    · simp [hc, eq_comm, Bool.or_comm]
  · have hne : c ≠ k := by omega
    rw [if_neg hne, BitVec.getLsbD_of_ge _ c (Nat.le_of_not_lt hc), BitVec.getLsbD_of_ge _ c (Nat.le_of_not_lt hc)]

/-- `write_cell` (R82): cell `k` takes the bit where it exists, every other cell stays. -/
theorem getLsbD_writeCell (k c : Nat) (b : Bool) (s : State) :
    (writeCell k b s).ba.getLsbD c = if c = k ∧ k < 47 then b else s.ba.getLsbD c := by
  rw [writeCell_ba]
  by_cases hk : k < 47
  · simp [Config.packetSize, hk, getLsbD_setCell]
  · simp [Config.packetSize, hk]

theorem revSum_lt (ba : BitArray) (lo w : Nat) : revSum ba lo w < 2 ^ w := by
  induction w with
  | zero => simp [revSum]
  | succ w ih =>
    have hc : cellNat ba (lo + w) ≤ 1 := Bool.toNat_le _
    have := Nat.mul_le_mul_right (2 ^ w) hc
    simp only [revSum, pow_succ]
    omega

theorem rev_lt (ba : BitArray) (lo hi : Nat) : rev ba lo hi < 2 ^ (hi - lo + 1) := revSum_lt ba lo _

/-- A range that reads alike has the same reversed sum. -/
theorem revSum_congr (a b : BitArray) (lo w : Nat) (h : ∀ k, k < w → a.getLsbD (lo + k) = b.getLsbD (lo + k)) :
    revSum a lo w = revSum b lo w := by
  induction w with
  | zero => rfl
  | succ w ih => simp [revSum, cellNat, ih fun k hk => h k (by omega), h w (by omega)]

/-- Bit `k` of the reversed sum is cell `lo + k`. -/
theorem testBit_revSum (ba : BitArray) (lo w k : Nat) :
    (revSum ba lo w).testBit k = (decide (k < w) && ba.getLsbD (lo + k)) := by
  induction w with
  | zero => simp [revSum]
  | succ w ih =>
    have hlt := revSum_lt ba lo w
    simp only [revSum, cellNat]
    rw [Nat.add_comm, Nat.mul_comm, Nat.testBit_two_pow_mul_add _ hlt]
    by_cases hk : k < w
    · simp [hk, ih, Nat.lt_succ_of_lt hk]
    · rcases Nat.eq_or_lt_of_le (Nat.le_of_not_lt hk) with rfl | hgt
      · cases ba.getLsbD (lo + w) <;> simp
      · have h1 : ¬ k < w + 1 := by omega
        obtain ⟨m, hm⟩ : ∃ m, k - w = m + 1 := ⟨k - w - 1, by omega⟩
        cases ba.getLsbD (lo + w) <;> simp [hk, h1, hm, Nat.testBit_succ]

/-! ### Reading an entry and its symbol -/

theorem writtenMeanwhile_eq_false {ws : List PortWrite} {k : Nat} (h : ∀ w, w ∈ ws → w.addr.toNat ≠ k) :
    writtenMeanwhile ws k = false := by
  simpa [writtenMeanwhile] using h

theorem writtenMeanwhile_eq_true {ws : List PortWrite} {k : Nat} {w : PortWrite} (hw : w ∈ ws) (hk : w.addr.toNat = k) :
    writtenMeanwhile ws k = true :=
  List.any_eq_true.2 ⟨w, hw, beq_iff_eq.2 hk⟩

/-- What reading an entry can do (R32, R151, R153). -/
theorem readEntry_cases (s : State) (k : Nat) :
    (Memory.read s.tbuf k = none ∧ readEntry s k = .refused (.unwrittenEntry k)) ∨
    ∃ old, Memory.read s.tbuf k = some old ∧
      readEntry s k = .next (if writtenMeanwhile s.portWrites k then Config.tornValue s.draws k else old) := by
  unfold readEntry
  cases Memory.read s.tbuf k with
  | none => exact .inl ⟨rfl, rfl⟩
  | some old => exact .inr ⟨old, rfl, rfl⟩

/-- A written entry that the host leaves alone reads as what it holds, whatever it writes elsewhere (R38, R153). -/
theorem readEntry_untouched (s : State) (k : Nat) (d : Duration) (hw : writtenMeanwhile s.portWrites k = false)
    (hr : Memory.read s.tbuf k = some d) : readEntry s k = .next d := by
  simp [readEntry, hr, hw]

/-- With no concurrent write at all (R152, R153 met) a written entry reads as what it holds. -/
theorem readEntry_quiet (s : State) (k : Nat) (d : Duration) (hw : s.portWrites = []) (hr : Memory.read s.tbuf k = some d) :
    readEntry s k = .next d :=
  readEntry_untouched s k d (by rw [hw]; rfl) hr

/-- The wires bring every symbol to its user unchanged (R45, R67). -/
@[simp] theorem symbolOfCode_code (x : Symbol) : symbolOfCode x.code = some x := by cases x <;> rfl

theorem symbolAt_eq (s : State) (k : Nat) :
    symbolAt s k = andThen (readEntry s k) fun d => .next (classify s.tOne s.tZero d) := by
  unfold symbolAt symbolWires
  simp

theorem symbolAt_no_fault (s : State) (k : Nat) (r : Fault) : symbolAt s k ≠ .fault r := by
  rw [symbolAt_eq]
  rcases readEntry_cases s k with ⟨-, h⟩ | ⟨old, -, h⟩ <;> simp [h]

theorem symbolAt_refused {s : State} {k : Nat} {r : Refusal} (h : symbolAt s k = .refused r) :
    r = .unwrittenEntry k ∧ Memory.read s.tbuf k = none := by
  rw [symbolAt_eq] at h
  rcases readEntry_cases s k with ⟨hn, h'⟩ | ⟨old, -, h'⟩
  · rw [h'] at h; cases h; exact ⟨rfl, hn⟩
  · rw [h'] at h; cases h

theorem symbolAt_untouched (s : State) (k : Nat) (d : Duration) (hw : writtenMeanwhile s.portWrites k = false)
    (hr : Memory.read s.tbuf k = some d) : symbolAt s k = .next (classify s.tOne s.tZero d) := by
  rw [symbolAt_eq, readEntry_untouched s k d hw hr]; rfl

theorem symbolAt_quiet (s : State) (k : Nat) (d : Duration) (hw : s.portWrites = []) (hr : Memory.read s.tbuf k = some d) :
    symbolAt s k = .next (classify s.tOne s.tZero d) := by
  rw [symbolAt_eq, readEntry_quiet s k d hw hr]; rfl

/-- The symbol of an entry depends on the buffer, the port, the draw number and the thresholds only. -/
theorem symbolAt_congr {s t : State} (k : Nat) (h1 : t.tbuf = s.tbuf) (h2 : t.portWrites = s.portWrites)
    (h3 : t.draws = s.draws) (h4 : t.tOne = s.tOne) (h5 : t.tZero = s.tZero) : symbolAt t k = symbolAt s k := by
  simp only [symbolAt_eq, readEntry, h1, h2, h3, h4, h5]

end Sys2Proof.Machine
end

