-- ==== Sys2Proof/Laws/Attempt.lean ====
section
/-! SUPPORT. What the micro-operations of a decode attempt can do, said once: SYNCDET and HEADCHK by cases, BITDEC by its closed
form, and the whole attempt as the closed form of R127 over the symbols it sees. -/

namespace Sys2Proof.Machine

/-- The symbol the core sees of entry `k`; NOISE stands where it would see none (an entry never written). -/
def seen (s : State) (k : Nat) : Symbol :=
  match symbolAt s k with
  | .next x => x
  | .fault _ => .noise
  | .refused _ => .noise

theorem seen_eq {s : State} {k : Nat} {x : Symbol} (h : symbolAt s k = .next x) : seen s k = x := by
  simp [seen, h]

theorem seen_congr {s t : State} (k : Nat) (h : symbolAt t k = symbolAt s k) : seen t k = seen s k := by
  simp [seen, h]

/-! ### SYNCDET -/

/-- The scan after `c` SYNC pulses: at index `c + 1` with `cnt = c`. -/
abbrev atPulse (c : Nat) (s : State) : State := { s with cnt := BitVec.ofNat 4 c, i := BitVec.ofNat 7 (c + 1) }

theorem symbolAt_atPulse (c : Nat) (s : State) (k : Nat) : symbolAt (atPulse c s) k = symbolAt s k :=
  symbolAt_congr k rfl rfl rfl rfl rfl

theorem syncdet_eq (n : Index) (s : State) : syncdet n s = syncScan n.toNat n (atPulse 0 { s with phase := .sync }) := rfl

/-- One round of the scan at a valid entry. -/
theorem syncScan_round (s : State) (n : Index) (c rounds : Nat) (hc : c < 8) (hn : c + 1 < n.toNat) :
    syncScan (rounds + 1) n (atPulse c s) =
      andThen (symbolAt s (c + 1)) fun x =>
        if x = .sync then
          if c + 1 = 8 then .next ({ atPulse c s with cnt := 8#4, offset := 9#7 }, none)
          else syncScan rounds n (atPulse (c + 1) s)
        else .next ({ atPulse c s with cnt := 0#4 }, some .syncFail) := by
  have h1 : (BitVec.ofNat 7 (c + 1)).toNat = c + 1 := by simp; omega
  have h2 : (BitVec.ofNat 7 (c + 1)) < n := by rw [BitVec.lt_def, h1]; exact hn
  have h3 : (BitVec.ofNat 4 c + 1#4 = BitVec.ofNat 4 Config.nSync) ↔ c + 1 = 8 := by
    rw [← BitVec.toNat_inj]; simp [Config.nSync]; omega
  have h4 : BitVec.ofNat 4 c + 1#4 = BitVec.ofNat 4 (c + 1) := by
    rw [← BitVec.toNat_inj]; simp
  have h5 : BitVec.ofNat 7 (c + 1) + 1#7 = BitVec.ofNat 7 (c + 1 + 1) := by
    rw [← BitVec.toNat_inj]; simp
  simp only [syncScan, if_pos h2, h1, h3, symbolAt_atPulse]
  congr 1
  funext x
  by_cases hx : x = .sync
  · by_cases h8 : c + 1 = 8
    · obtain rfl : c = 7 := by omega
      simp [hx]
    · simp [hx, h8, h4, h5]
  · simp [hx]

/-- Past the end of the sequence the scan has failed. -/
theorem syncScan_end (s : State) (n : Index) (c rounds : Nat) (hc : c < 8) (hn : n.toNat ≤ c + 1) :
    syncScan rounds n (atPulse c s) = .next (atPulse c s, some .syncFail) := by
  cases rounds with
  | zero => rfl
  | succ rounds =>
    have h1 : (BitVec.ofNat 7 (c + 1)).toNat = c + 1 := by simp; omega
    have h2 : ¬ (BitVec.ofNat 7 (c + 1)) < n := by rw [BitVec.lt_def, h1]; omega
    simp [syncScan, h2]

/-- `m` more SYNC pulses, not yet eight. -/
theorem syncScan_run (s : State) (n : Index) (m c rounds : Nat) (h8 : c + m < 8) (hn : c + m < n.toNat)
    (hs : ∀ k, c < k → k ≤ c + m → symbolAt s k = .next .sync) :
    syncScan (rounds + m) n (atPulse c s) = syncScan rounds n (atPulse (c + m) s) := by
  induction m generalizing c with
  | zero => rfl
  | succ m ih =>
    rw [← Nat.add_assoc, syncScan_round s n c _ (by omega) (by omega), hs (c + 1) (by omega) (by omega)]
    have : ¬ c + 1 = 8 := by omega
    simp only [andThen_next, if_true, if_neg this]
    rw [ih (c + 1) (by omega) (by omega) fun k h1 h2 => hs k (by omega) (by omega)]
    congr 2; omega

/-- SYNCDET up to the pulse `c + 1`, when the pulses before it are SYNC (R70). -/
theorem syncdet_run (s : State) (n : Index) (c : Nat) (hc : c < 8) (hn : c < n.toNat)
    (hs : ∀ k, 1 ≤ k → k ≤ c → symbolAt s k = .next .sync) :
    syncdet n s = syncScan (n.toNat - c) n (atPulse c { s with phase := .sync }) := by
  rw [syncdet_eq]
  have := syncScan_run { s with phase := .sync } n c 0 (n.toNat - c) (by omega) (by omega) fun k h1 h2 =>
    (symbolAt_congr (s := s) k rfl rfl rfl rfl rfl).trans (hs k h1 (by omega))
  rw [Nat.sub_add_cancel hn.le, Nat.zero_add] at this
  exact this

/-- SYNCDET at the pulse `c + 1`, when the pulses before it are SYNC and it exists (R70). -/
theorem syncdet_at (s : State) (n : Index) (c : Nat) (hc : c < 8) (hn : c + 1 < n.toNat)
    (hs : ∀ k, 1 ≤ k → k ≤ c → symbolAt s k = .next .sync) :
    syncdet n s =
      andThen (symbolAt s (c + 1)) fun x =>
        if x = .sync then
          if c + 1 = 8 then .next ({ atPulse c { s with phase := .sync } with cnt := 8#4, offset := 9#7 }, none)
          else syncScan (n.toNat - c - 1) n (atPulse (c + 1) { s with phase := .sync })
        else .next ({ atPulse c { s with phase := .sync } with cnt := 0#4 }, some .syncFail) := by
  have h : symbolAt { s with phase := .sync } (c + 1) = symbolAt s (c + 1) := symbolAt_congr _ rfl rfl rfl rfl rfl
  rw [syncdet_run s n c hc (by omega) hs, show n.toNat - c = n.toNat - c - 1 + 1 by omega,
    syncScan_round { s with phase := .sync } n c _ hc hn, h]
  simp only [Nat.add_sub_cancel]

/-- Eight SYNC pulses: SYNCDET falls through with `cnt = 8`, `i = 8`, `offset = 9` (R70). -/
theorem syncdet_pass (s : State) (n : Index) (hn : 8 < n.toNat)
    (hs : ∀ k, 1 ≤ k → k ≤ 8 → symbolAt s k = .next .sync) :
    syncdet n s = .next ({ s with phase := .sync, cnt := 8#4, i := 8#7, offset := 9#7 }, none) := by
  rw [syncdet_at s n 7 (by omega) (by omega) fun k h1 h2 => hs k h1 (by omega), hs 8 (by omega) (by omega)]
  rfl

/-- The sequence ends inside the SYNC run (R72). -/
theorem syncdet_short (s : State) (n : Index) (hn : n.toNat ≤ 8)
    (hs : ∀ k, 1 ≤ k → k < n.toNat → symbolAt s k = .next .sync) :
    ∃ c, syncdet n s = .next (atPulse c { s with phase := .sync }, some .syncFail) := by
  refine ⟨n.toNat - 1, ?_⟩
  rcases Nat.eq_zero_or_pos n.toNat with h0 | hpos
  · simp [syncdet_eq, h0, syncScan]
  · rw [syncdet_run s n (n.toNat - 1) (by omega) (by omega) fun k h1 h2 => hs k h1 (by omega)]
    exact syncScan_end _ n _ _ (by omega) (by omega)

/-- What SYNCDET can do (R70 to R72): the run is complete, a pulse of it is not SYNC, the sequence ends, or an entry of it was
never written. -/
theorem syncdet_cases (s : State) (n : Index) :
    (8 < n.toNat ∧ (∀ k, 1 ≤ k → k ≤ 8 → symbolAt s k = .next .sync) ∧
      syncdet n s = .next ({ s with phase := .sync, cnt := 8#4, i := 8#7, offset := 9#7 }, none)) ∨
    (∃ c x, c < 8 ∧ c + 1 < n.toNat ∧ (∀ k, 1 ≤ k → k ≤ c → symbolAt s k = .next .sync) ∧
      symbolAt s (c + 1) = .next x ∧ x ≠ .sync ∧
      syncdet n s = .next ({ atPulse c { s with phase := .sync } with cnt := 0#4 }, some .syncFail)) ∨
    (n.toNat ≤ 8 ∧ (∀ k, 1 ≤ k → k < n.toNat → symbolAt s k = .next .sync) ∧
      ∃ c, syncdet n s = .next (atPulse c { s with phase := .sync }, some .syncFail)) ∨
    (∃ c, c < 8 ∧ c + 1 < n.toNat ∧ (∀ k, 1 ≤ k → k ≤ c → symbolAt s k = .next .sync) ∧
      symbolAt s (c + 1) = .refused (.unwrittenEntry (c + 1)) ∧
      syncdet n s = .refused (.unwrittenEntry (c + 1))) := by
  by_cases hall : ∀ k, 1 ≤ k → k ≤ 8 → k < n.toNat → symbolAt s k = .next .sync
  · by_cases hn : 8 < n.toNat
    · exact .inl ⟨hn, fun k h1 h2 => hall k h1 h2 (by omega), syncdet_pass s n hn fun k h1 h2 => hall k h1 h2 (by omega)⟩
    · exact .inr (.inr (.inl ⟨by omega, fun k h1 h2 => hall k h1 (by omega) h2,
        syncdet_short s n (by omega) fun k h1 h2 => hall k h1 (by omega) h2⟩))
  · have hex : ∃ k, 1 ≤ k ∧ k ≤ 8 ∧ k < n.toNat ∧ symbolAt s k ≠ .next .sync := by
      by_contra hno
      exact hall fun k h1 h2 h3 => by_contra fun h4 => hno ⟨k, h1, h2, h3, h4⟩
    classical
    obtain ⟨h1, h2, h3, h4⟩ := Nat.find_spec hex
    have hmin : ∀ k, k < Nat.find hex → ¬ (1 ≤ k ∧ k ≤ 8 ∧ k < n.toNat ∧ symbolAt s k ≠ .next .sync) :=
      fun k hk => Nat.find_min hex hk
    generalize Nat.find hex = m at h1 h2 h3 h4 hmin
    obtain ⟨c, rfl⟩ : ∃ c, m = c + 1 := ⟨m - 1, by omega⟩
    have hs : ∀ k, 1 ≤ k → k ≤ c → symbolAt s k = .next .sync := fun k hk1 hk2 =>
      by_contra fun h => hmin k (by omega) ⟨hk1, by omega, by omega, h⟩
    have hat := syncdet_at s n c (by omega) h3 hs
    cases hsym : symbolAt s (c + 1) with
    | next x =>
      have hx : x ≠ .sync := fun hx => h4 (by rw [hsym, hx])
      rw [hsym, andThen_next, if_neg hx] at hat
      exact .inr (.inl ⟨c, x, by omega, h3, hs, hsym, hx, hat⟩)
    | fault r => exact absurd hsym (symbolAt_no_fault s _ r)
    | refused r =>
      obtain ⟨rfl, -⟩ := symbolAt_refused hsym
      rw [hsym, andThen_refused] at hat
      exact .inr (.inr (.inr ⟨c, by omega, h3, hs, hsym, hat⟩))

/-! ### HEADCHK -/

/-- What HEADCHK can do when SYNCDET left `offset = 9` (R73). -/
theorem headchk_cases (s : State) (n : Index) (ho : s.offset = 9#7) :
    (9 < n.toNat ∧ symbolAt s 9 = .next .head ∧
      headchk n s = .next ({ s with phase := .head, offset := 10#7 }, none)) ∨
    (n.toNat ≤ 9 ∧ headchk n s = .next ({ s with phase := .head }, some .headFail)) ∨
    (∃ x, 9 < n.toNat ∧ symbolAt s 9 = .next x ∧ x ≠ .head ∧
      headchk n s = .next ({ s with phase := .head }, some .headFail)) ∨
    (9 < n.toNat ∧ symbolAt s 9 = .refused (.unwrittenEntry 9) ∧ headchk n s = .refused (.unwrittenEntry 9)) := by
  have hle : n ≤ s.offset ↔ n.toNat ≤ 9 := by rw [BitVec.le_def, ho]; rfl
  have h9 : s.offset.toNat = 9 := by rw [ho]; rfl
  unfold headchk
  by_cases hn : n.toNat ≤ 9
  · rw [if_pos (hle.2 hn)]
    exact .inr (.inl ⟨hn, rfl⟩)
  · rw [if_neg (mt hle.1 hn), h9]
    cases hsym : symbolAt s 9 with
    | next x =>
      by_cases hx : x = .head
      · subst hx
        exact .inl ⟨by omega, rfl, by simp [ho]⟩
      · exact .inr (.inr (.inl ⟨x, by omega, rfl, hx, by simp [hx]⟩))
    | fault r => exact absurd hsym (symbolAt_no_fault s _ r)
    | refused r =>
      obtain ⟨rfl, -⟩ := symbolAt_refused hsym
      exact .inr (.inr (.inr ⟨by omega, rfl, rfl⟩))

/-! ### BITDEC -/

theorem getLsbD_payloadBits (n : Nat) (f : Nat → Symbol) (k : Nat) (hk : k < 47) :
    (payloadBits n f).getLsbD k = payloadOne n f k := by
  simp [payloadBits, hk]

theorem payloadBits_ten (f : Nat → Symbol) : payloadBits 10 f = 0#47 := by
  apply BitVec.eq_of_getLsbD_eq
  intro k hk
  rw [getLsbD_payloadBits 10 f k hk]
  simp [payloadOne]

theorem payloadNumber_succ (n : Nat) (f : Nat → Symbol) (hn : 10 ≤ n) :
    payloadNumber (n + 1) f = appendDigit f (payloadNumber n f) n := by
  unfold payloadNumber
  rw [show n + 1 - 10 = (n - 10) + 1 by omega, List.range'_1_concat, List.foldl_append]
  simp [show 10 + (n - 10) = n by omega]

theorem payloadValue_ten (f : Nat → Symbol) : payloadValue 10 f = 0#64 := rfl

/-- A pulse of the payload moves the closed form one entry on (R81, R89). -/
theorem pulse_closed (s : State) (f : Nat → Symbol) (e : Nat) (h10 : 10 ≤ e) (h64 : e < 64) (ho : s.offset = 10#7)
    (hi : s.i = BitVec.ofNat 7 e) (hba : s.ba = payloadBits e f) (hpv : s.pv = payloadValue e f) :
    (pulse (f e) s).ba = payloadBits (e + 1) f ∧ (pulse (f e) s).pv = payloadValue (e + 1) f := by
  have hk : (s.i - s.offset).toNat = e - 10 := by
    rw [hi, ho]; simp [BitVec.toNat_sub]; omega
  have hone : ∀ k, payloadOne (e + 1) f k = if k = e - 10 then f e == .one else payloadOne e f k := by
    intro k
    unfold payloadOne
    split
    · next h => subst h; simp [show 10 + (e - 10) = e by omega]
    · next h => congr 1; simp; omega
  have hsame : f e ≠ .one → payloadBits (e + 1) f = payloadBits e f := by
    intro hne
    apply BitVec.eq_of_getLsbD_eq
    intro k hk47
    rw [getLsbD_payloadBits _ _ _ hk47, getLsbD_payloadBits _ _ _ hk47, hone]
    split
    · next h => subst h; simp [payloadOne, show 10 + (e - 10) = e by omega, hne]
    · rfl
  have hval : payloadValue (e + 1) f = BitVec.ofNat 64 (appendDigit f (payloadNumber e f) e) := by
    rw [payloadValue, payloadNumber_succ e f h10]
  have hcell : ∀ b, (writeCell (e - 10) b (shiftIn b s)).ba = payloadBits (e + 1) f ↔
      ∀ k, k < 47 → (if k = e - 10 ∧ e - 10 < 47 then b else (payloadBits e f).getLsbD k) = payloadOne (e + 1) f k := by
    intro b
    constructor
    · intro h k hk47
      have := congrArg (fun v => v.getLsbD k) h
      simp only [getLsbD_writeCell, shiftIn_ba, hba] at this
      rw [this, getLsbD_payloadBits _ _ _ hk47]
    · intro h
      apply BitVec.eq_of_getLsbD_eq
      intro k hk47
      rw [getLsbD_writeCell, shiftIn_ba, hba, getLsbD_payloadBits (e + 1) _ _ hk47]
      exact h k hk47
  have hdigit : ∀ p : Nat, ∀ b : Bool,
      (BitVec.ofNat 64 p <<< 1) ||| (BitVec.ofBool b).zeroExtend 64 = BitVec.ofNat 64 (2 * p + b.toNat) := by
    intro p b
    apply BitVec.eq_of_toNat_eq
    cases b
    · simp [Nat.shiftLeft_eq]; omega
    · have hor : ∀ q : Nat, (2 * q) ||| 1 = 2 * q + 1 := by
        intro q; exact (Nat.two_pow_add_eq_or_of_lt (i := 1) (b := 1) (by decide) q).symm
      have : (p <<< 1) % 2 ^ 64 = 2 * (p % 2 ^ 63) := by rw [Nat.shiftLeft_eq]; omega
      simp only [BitVec.toNat_or, BitVec.toNat_shiftLeft, BitVec.toNat_ofNat]
      rw [show (p % 2 ^ 64) <<< 1 % 2 ^ 64 = 2 * (p % 2 ^ 63) by rw [Nat.shiftLeft_eq]; omega]
      rw [show (BitVec.zeroExtend 64 (BitVec.ofBool true)).toNat = 1 from rfl, hor]
      simp; omega
  cases hf : f e with
  | one =>
    simp only [pulse, hk]
    refine ⟨(hcell true).2 fun k hk47 => ?_, ?_⟩
    · rw [hone, hf, getLsbD_payloadBits _ _ _ hk47]
      split <;> split <;> simp_all
    · rw [writeCell_pv, shiftIn_pv, hpv, hval]
      simp only [appendDigit, hf]
      exact hdigit _ true
  | zero =>
    simp only [pulse, hk]
    refine ⟨(hcell false).2 fun k hk47 => ?_, ?_⟩
    · rw [hone, hf, getLsbD_payloadBits _ _ _ hk47]
      split <;> split <;> simp_all
    · rw [writeCell_pv, shiftIn_pv, hpv, hval]
      simp only [appendDigit, hf]
      exact hdigit _ false
  | noise => exact ⟨by rw [hsame (by simp [hf])]; exact hba, by rw [hval]; simpa [appendDigit, hf, pulse, payloadValue] using hpv⟩
  | sync => exact ⟨by rw [hsame (by simp [hf])]; exact hba, by rw [hval]; simpa [appendDigit, hf, pulse, payloadValue] using hpv⟩
  | head => exact ⟨by rw [hsame (by simp [hf])]; exact hba, by rw [hval]; simpa [appendDigit, hf, pulse, payloadValue] using hpv⟩

/-- BITDEC's loop, entered in the closed form up to entry `e`, ends in the closed form up to `n` (R80, R89). -/
theorem bitScan_closed (f : Nat → Symbol) (n : Index) (h64 : n.toNat ≤ 64) (rounds e : Nat) (s : State) (h10 : 10 ≤ e)
    (he : e ≤ n.toNat) (hr : n.toNat ≤ e + rounds) (ho : s.offset = 10#7) (hi : s.i = BitVec.ofNat 7 e)
    (hba : s.ba = payloadBits e f) (hpv : s.pv = payloadValue e f)
    (hs : ∀ k, e ≤ k → k < n.toNat → symbolAt s k = .next (f k)) :
    bitScan rounds n s = .next { s with i := n, ba := payloadBits n.toNat f, pv := payloadValue n.toNat f } := by
  have hit : s.i.toNat = e := by rw [hi]; simp; omega
  have stop : e = n.toNat → s = { s with i := n, ba := payloadBits n.toNat f, pv := payloadValue n.toNat f } := by
    rintro rfl
    have : s.i = n := BitVec.eq_of_toNat_eq hit
    cases s; simp_all
  induction rounds generalizing e s with
  | zero => exact congrArg _ (stop (by omega))
  | succ rounds ih =>
    unfold bitScan
    by_cases hlt : e < n.toNat
    · have hp := pulse_closed s f e h10 (by omega) ho hi hba hpv
      have hi' : BitVec.ofNat 7 e + 1#7 = BitVec.ofNat 7 (e + 1) := by rw [← BitVec.toNat_inj]; simp
      rw [if_pos (by rw [BitVec.lt_def, hit]; exact hlt), hit, hs e (Nat.le_refl e) hlt, andThen_next,
        ih (e + 1) { pulse (f e) s with i := s.i + 1#7 } (by omega) (by omega) (by omega) (by simpa using ho)
          (by rw [hi]; exact hi') hp.1 hp.2
          (fun k h1 h2 => (symbolAt_congr k (by simp) (by simp) (by simp) (by simp) (by simp)).trans (hs k (by omega) h2))
          (by rw [hi]; simp; omega)]
      · cases s; simp [pulse]; cases f e <;> simp [writeCell, shiftIn] <;> (try split) <;> simp
      · intro heq
        have : s.i + 1#7 = n := by rw [hi, hi']; exact BitVec.eq_of_toNat_eq (by simp; omega)
        rw [← heq, ← hp.1, ← hp.2, this]
    · rw [if_neg (by rw [BitVec.lt_def, hit]; exact hlt)]
      exact congrArg _ (stop (by omega))

/-- BITDEC's loop stops at the first entry never written (R32). -/
theorem bitScan_refused (n : Index) (h64 : n.toNat ≤ 64) (r : Refusal) (m rounds e : Nat) (s : State)
    (hm : e + m < n.toNat) (hr : m < rounds) (hi : s.i = BitVec.ofNat 7 e)
    (hs : ∀ k, e ≤ k → k < e + m → ∃ x, symbolAt s k = .next x) (hstop : symbolAt s (e + m) = .refused r) :
    bitScan rounds n s = .refused r := by
  induction m generalizing rounds e s with
  | zero =>
    obtain ⟨rounds, rfl⟩ : ∃ q, rounds = q + 1 := ⟨rounds - 1, by omega⟩
    have hit : s.i.toNat = e := by rw [hi]; simp; omega
    unfold bitScan
    rw [if_pos (by rw [BitVec.lt_def, hit]; omega), hit, show symbolAt s e = .refused r from hstop, andThen_refused]
  | succ m ih =>
    obtain ⟨rounds, rfl⟩ : ∃ q, rounds = q + 1 := ⟨rounds - 1, by omega⟩
    have hit : s.i.toNat = e := by rw [hi]; simp; omega
    obtain ⟨x, hx⟩ := hs e (Nat.le_refl e) (by omega)
    have hsame : ∀ k, symbolAt { pulse x s with i := s.i + 1#7 } k = symbolAt s k := fun k =>
      symbolAt_congr k (by simp) (by simp) (by simp) (by simp) (by simp)
    unfold bitScan
    rw [if_pos (by rw [BitVec.lt_def, hit]; omega), hit, hx, andThen_next]
    exact ih rounds (e + 1) _ (by omega) (by omega) (by rw [hi]; rw [← BitVec.toNat_inj]; simp)
      (fun k h1 h2 => by rw [hsame]; exact hs k (by omega) (by omega)) (by rw [hsame, ← hstop]; congr 1; omega)

/-- A property of the naturals from `lo` up to `n` holds throughout, or fails first somewhere. -/
theorem all_or_first (P : Nat → Prop) (lo n : Nat) :
    (∀ k, lo ≤ k → k < n → P k) ∨ ∃ m, lo ≤ m ∧ m < n ∧ ¬ P m ∧ ∀ k, lo ≤ k → k < m → P k := by
  classical
  by_cases h : ∃ k, lo ≤ k ∧ k < n ∧ ¬ P k
  · obtain ⟨h1, h2, h3⟩ := Nat.find_spec h
    refine .inr ⟨Nat.find h, h1, h2, h3, fun k hk1 hk2 => by_contra fun hP => Nat.find_min h hk2 ⟨hk1, by omega, hP⟩⟩
  · exact .inl fun k h1 h2 => by_contra fun hP => h ⟨k, h1, h2, hP⟩

/-- Seeing a symbol or refusing an entry never written are all that reading one can do. -/
theorem symbolAt_cases (s : State) (k : Nat) :
    symbolAt s k = .next (seen s k) ∨
      (symbolAt s k = .refused (.unwrittenEntry k) ∧ Memory.read s.tbuf k = none) := by
  cases h : symbolAt s k with
  | next x => exact .inl (by rw [seen_eq h])
  | fault r => exact absurd h (symbolAt_no_fault s k r)
  | refused r => obtain ⟨rfl, hr⟩ := symbolAt_refused h; exact .inr ⟨rfl, hr⟩

/-- What BITDEC can do after CLEAR with `offset = 10` (R80, R89). -/
theorem bitdec_cases (s : State) (n : Index) (h64 : n.toNat ≤ 64) (h10 : 10 ≤ n.toNat) (ho : s.offset = 10#7)
    (hba : s.ba = 0#47) (hpv : s.pv = 0#64) :
    ((∀ k, 10 ≤ k → k < n.toNat → symbolAt s k = .next (seen s k)) ∧
      bitdec n s = .next { s with
        phase := .bits, i := n, ba := payloadBits n.toNat (seen s), pv := payloadValue n.toNat (seen s) }) ∨
    ∃ k, 10 ≤ k ∧ k < n.toNat ∧ Memory.read s.tbuf k = none ∧ (∀ l, 10 ≤ l → l < k → symbolAt s l = .next (seen s l)) ∧
      bitdec n s = .refused (.unwrittenEntry k) := by
  have hsame : ∀ k, symbolAt { s with phase := .bits, i := s.offset } k = symbolAt s k := fun k =>
    symbolAt_congr k rfl rfl rfl rfl rfl
  rcases all_or_first (fun k => symbolAt s k = .next (seen s k)) 10 n.toNat with hall | ⟨m, h1, h2, h3, h4⟩
  · refine .inl ⟨hall, ?_⟩
    exact bitScan_closed (seen s) n h64 n.toNat 10 { s with phase := .bits, i := s.offset } (by omega) h10 (by omega) ho ho
      (hba.trans (payloadBits_ten _).symm) (hpv.trans (payloadValue_ten _).symm)
      fun k hk1 hk2 => (hsame k).trans (hall k hk1 hk2)
  · rcases symbolAt_cases s m with h | ⟨h, hr⟩
    · exact absurd h h3
    · refine .inr ⟨m, h1, h2, hr, h4, ?_⟩
      exact bitScan_refused n h64 _ (m - 10) n.toNat 10 { s with phase := .bits, i := s.offset } (by omega) (by omega) ho
        (fun k hk1 hk2 => ⟨_, (hsame k).trans (h4 k hk1 (by omega))⟩)
        (by rw [hsame, show 10 + (m - 10) = m by omega]; exact h)

/-! ### The closed forms of the outcome -/

/-- The closed form uses the symbols of entries below `n` only. -/
theorem outcome2_congr (n : Nat) (f g : Nat → Symbol) (h : ∀ k, 1 ≤ k → k < n → f k = g k) : outcome2 n f = outcome2 n g := by
  have hk : ∀ k, 1 ≤ k → (decide (n ≤ k) || f k != .sync) = (decide (n ≤ k) || g k != .sync) := by
    intro k hk
    by_cases hn : n ≤ k
    · simp [hn]
    · rw [h k hk (by omega)]
  have h9 : (decide (n ≤ 9) || f 9 != .head) = (decide (n ≤ 9) || g 9 != .head) := by
    by_cases hn : n ≤ 9
    · simp [hn]
    · rw [h 9 (by omega) (by omega)]
  have hany : ([1, 2, 3, 4, 5, 6, 7, 8].any fun k => decide (n ≤ k) || f k != .sync) =
      [1, 2, 3, 4, 5, 6, 7, 8].any fun k => decide (n ≤ k) || g k != .sync := by
    simp only [List.any_cons, List.any_nil, hk _ (show 1 ≤ 1 by omega), hk _ (show 1 ≤ 2 by omega),
      hk _ (show 1 ≤ 3 by omega), hk _ (show 1 ≤ 4 by omega), hk _ (show 1 ≤ 5 by omega), hk _ (show 1 ≤ 6 by omega),
      hk _ (show 1 ≤ 7 by omega), hk _ (show 1 ≤ 8 by omega)]
  unfold outcome2
  rw [hany, h9]

theorem outcome2_syncFail (n : Nat) (f : Nat → Symbol) (k : Nat) (h1 : 1 ≤ k) (h8 : k ≤ 8) (h : n ≤ k ∨ f k ≠ .sync) :
    outcome2 n f = some .syncFail := by
  have : ([1, 2, 3, 4, 5, 6, 7, 8].any fun k => decide (n ≤ k) || f k != .sync) = true := by
    rw [List.any_eq_true]
    exact ⟨k, by simp; omega, by simpa using h⟩
  simp [outcome2, this]

theorem outcome2_run (n : Nat) (f : Nat → Symbol) (hn : 8 < n) (hs : ∀ k, 1 ≤ k → k ≤ 8 → f k = .sync) :
    outcome2 n f = if n ≤ 9 ∨ f 9 ≠ .head then some .headFail else none := by
  have : ([1, 2, 3, 4, 5, 6, 7, 8].any fun k => decide (n ≤ k) || f k != .sync) = false := by
    rw [List.any_eq_false]
    intro k hk
    have : 1 ≤ k ∧ k ≤ 8 := by simp at hk; omega
    simp [hs k this.1 this.2]; omega
  simp [outcome2, this]

theorem payloadBits_congr (n : Nat) (f g : Nat → Symbol) (h : ∀ k, 10 ≤ k → k < n → f k = g k) :
    payloadBits n f = payloadBits n g := by
  apply BitVec.eq_of_getLsbD_eq
  intro k hk
  rw [getLsbD_payloadBits n f k hk, getLsbD_payloadBits n g k hk]
  unfold payloadOne
  by_cases hn : 10 + k < n
  · rw [h (10 + k) (by omega) hn]
  · simp [hn]

theorem payloadNumber_congr (n : Nat) (f g : Nat → Symbol) (h : ∀ k, 10 ≤ k → k < n → f k = g k) :
    payloadNumber n f = payloadNumber n g := by
  unfold payloadNumber
  refine List.foldl_ext _ _ 0 fun p k hk => ?_
  rw [List.mem_range'_1] at hk
  simp only [appendDigit, h k hk.1 (by omega)]

/-- DECODE's closed form uses the symbols of entries 1 to `n - 1` only (R120). -/
theorem decodeClosed_congr (n : Nat) (f g : Nat → Symbol) (h : ∀ k, 1 ≤ k → k < n → f k = g k) :
    decodeClosed n f = decodeClosed n g := by
  have h10 : ∀ k, 10 ≤ k → k < n → f k = g k := fun k hk1 hk2 => h k (by omega) hk2
  simp only [decodeClosed, outcome2_congr n f g h, payloadBits_congr n f g h10, payloadValue, payloadNumber_congr n f g h10]

/-- The number in `PV` has at most one digit per payload pulse (R85). -/
theorem payloadNumber_lt (f : Nat → Symbol) (n : Nat) (hn : 10 ≤ n) : payloadNumber n f < 2 ^ (n - 10) := by
  induction n, hn using Nat.le_induction with
  | base => simp [payloadNumber]
  | succ n hn ih =>
    rw [payloadNumber_succ n f hn, show n + 1 - 10 = (n - 10) + 1 by omega, pow_succ]
    unfold appendDigit
    split <;> omega

/-- A ONE among the payload pulses leaves a one in the number. -/
theorem payloadNumber_pos (f : Nat → Symbol) (n k : Nat) (hk : 10 ≤ k) (hn : k < n) (hf : f k = .one) :
    0 < payloadNumber n f := by
  induction n, hn using Nat.le_induction with
  | base => rw [Nat.succ_eq_add_one, payloadNumber_succ k f hk]; simp [appendDigit, hf]
  | succ n hn ih =>
    rw [payloadNumber_succ n f (by omega)]
    unfold appendDigit
    split <;> omega

/-! ### CHECK and the whole attempt -/

/-- The end of an attempt: its transients are at rest, and what belongs to the configuration and the host is as it was. -/
structure AttemptEnd (s t : State) : Prop where
  i : t.i = 0#7
  cnt : t.cnt = 0#4
  offset : t.offset = 0#7
  phase : t.phase = .idle
  tOne : t.tOne = s.tOne
  tZero : t.tZero = s.tZero
  tbuf : t.tbuf = s.tbuf
  busy : t.busy = s.busy
  rsp : t.rsp = s.rsp
  inputs : t.inputs = s.inputs
  portWrites : t.portWrites = s.portWrites
  received : t.received = s.received

/-- The scan of an attempt with length bound `n` comes to entry `k`, which was never written. -/
structure Reaches (n : Index) (s : State) (k : Nat) : Prop where
  pos : 1 ≤ k
  lt : k < n.toNat
  unwritten : symbolAt s k = .refused (.unwrittenEntry k)
  run : ∀ l, 1 ≤ l → l < k → l ≤ 8 → symbolAt s l = .next .sync
  head : 9 < k → symbolAt s 9 = .next .head
  payload : ∀ l, 10 ≤ l → l < k → symbolAt s l = .next (seen s l)

/-- CHECK accepts and keeps, or rejects and clears (R123 to R125). -/
theorem check_cases (s : State) :
    ((checksum s.ba).accept = true ∧ check s = (forgetWorking (evaluate { s with phase := .check }), .accept)) ∨
    ((checksum s.ba).accept = false ∧
      check s = (zeroPacket (forgetWorking (evaluate { s with phase := .check })), .csumFail)) := by
  unfold check
  cases h : (checksum s.ba).accept <;> simp

/-- The state SYNCDET leaves when it falls through. -/
def afterRun (s : State) : State := { clear s with phase := .sync, cnt := 8#4, i := 8#7, offset := 9#7 }

/-- The state HEADCHK leaves when it falls through. -/
def afterHead (s : State) : State := { afterRun s with phase := .head, offset := 10#7 }

@[simp] theorem symbolAt_clear (s : State) (k : Nat) : symbolAt (clear s) k = symbolAt s k :=
  symbolAt_congr k rfl rfl rfl rfl rfl

@[simp] theorem symbolAt_afterRun (s : State) (k : Nat) : symbolAt (afterRun s) k = symbolAt s k :=
  symbolAt_congr k rfl rfl rfl rfl rfl

@[simp] theorem symbolAt_afterHead (s : State) (k : Nat) : symbolAt (afterHead s) k = symbolAt s k :=
  symbolAt_congr k rfl rfl rfl rfl rfl

@[simp] theorem seen_afterHead (s : State) : seen (afterHead s) = seen s :=
  funext fun k => seen_congr k (symbolAt_afterHead s k)

/-- After a complete SYNC run the attempt goes on to HEADCHK (R121). -/
theorem attempt_run (s : State) (n : Index) (hn : 8 < n.toNat) (hs : ∀ k, 1 ≤ k → k ≤ 8 → symbolAt s k = .next .sync) :
    attempt n s = afterSync n (afterRun s) := by
  unfold attempt
  rw [syncdet_pass (clear s) n hn fun k h1 h2 => (symbolAt_clear s k).trans (hs k h1 h2)]
  rfl

/-- After the HEAD the attempt goes on to BITDEC and CHECK (R121). -/
theorem attempt_head (s : State) (n : Index) (hn : 9 < n.toNat) (hs : ∀ k, 1 ≤ k → k ≤ 8 → symbolAt s k = .next .sync)
    (hh : symbolAt s 9 = .next .head) : attempt n s = payload n (afterHead s) := by
  rw [attempt_run s n (by omega) hs]
  unfold afterSync
  rcases headchk_cases (afterRun s) n rfl with ⟨-, -, h⟩ | ⟨h9, -⟩ | ⟨x, -, hx, hne, -⟩ | ⟨-, hx, -⟩
  · rw [h]; rfl
  · omega
  · rw [symbolAt_afterRun, hh] at hx; cases hx; exact absurd rfl hne
  · rw [symbolAt_afterRun, hh] at hx; cases hx

/-- After a complete SYNC run, a missing or wrong HEAD ends the attempt (R73, R74). -/
theorem attempt_noHead (s : State) (n : Index) (hn : 8 < n.toNat) (hs : ∀ k, 1 ≤ k → k ≤ 8 → symbolAt s k = .next .sync)
    (hh : n.toNat = 9 ∨ ∃ x, symbolAt s 9 = .next x ∧ x ≠ .head) :
    attempt n s = .next (endAttempt { afterRun s with phase := .head }, .headFail) := by
  rw [attempt_run s n hn hs]
  unfold afterSync
  rcases headchk_cases (afterRun s) n rfl with ⟨h9, hx, -⟩ | ⟨-, h⟩ | ⟨x, -, -, -, h⟩ | ⟨h9, hx, -⟩
  · rw [symbolAt_afterRun] at hx
    rcases hh with hh | ⟨x, hh, hne⟩
    · omega
    · rw [hx] at hh; cases hh; exact absurd rfl hne
  · rw [h]; rfl
  · rw [h]; rfl
  · rw [symbolAt_afterRun] at hx
    rcases hh with hh | ⟨x, hh, -⟩
    · omega
    · rw [hx] at hh; cases hh

/-- A pulse of the SYNC run that is not SYNC ends the attempt (R71). -/
theorem attempt_break (s : State) (n : Index) (c : Nat) (x : Symbol) (hc : c < 8) (hn : c + 1 < n.toNat)
    (hs : ∀ k, 1 ≤ k → k ≤ c → symbolAt s k = .next .sync) (hx : symbolAt s (c + 1) = .next x) (hne : x ≠ .sync) :
    attempt n s = .next (endAttempt { atPulse c { clear s with phase := .sync } with cnt := 0#4 }, .syncFail) := by
  unfold attempt
  rw [syncdet_at (clear s) n c hc hn fun k h1 h2 => (symbolAt_clear s k).trans (hs k h1 h2), symbolAt_clear, hx,
    andThen_next, if_neg hne]
  rfl

/-- The sequence ends inside the SYNC run (R72). -/
theorem attempt_short (s : State) (n : Index) (hn : n.toNat ≤ 8)
    (hs : ∀ k, 1 ≤ k → k < n.toNat → symbolAt s k = .next .sync) :
    ∃ c, attempt n s = .next (endAttempt (atPulse c { clear s with phase := .sync }), .syncFail) := by
  obtain ⟨c, h⟩ := syncdet_short (clear s) n hn fun k h1 h2 => (symbolAt_clear s k).trans (hs k h1 h2)
  exact ⟨c, by unfold attempt; rw [h]; rfl⟩

/-- An attempt that comes to an entry never written stops there (R32). -/
theorem attempt_refused (s : State) (n : Index) (k : Nat) (h64 : n.toNat ≤ 64) (h : Reaches n s k) :
    attempt n s = .refused (.unwrittenEntry k) := by
  have := h.pos
  have := h.lt
  by_cases h8 : k ≤ 8
  · obtain ⟨c, rfl⟩ : ∃ c, k = c + 1 := ⟨k - 1, by omega⟩
    unfold attempt
    rw [syncdet_at (clear s) n c (by omega) h.lt
      fun l h1 h2 => (symbolAt_clear s l).trans (h.run l h1 (by omega) (by omega)), symbolAt_clear, h.unwritten]
    rfl
  · have hrun : ∀ l, 1 ≤ l → l ≤ 8 → symbolAt s l = .next .sync := fun l h1 h2 => h.run l h1 (by omega) h2
    by_cases h9 : k = 9
    · subst h9
      rw [attempt_run s n (by omega) hrun]
      unfold afterSync
      rcases headchk_cases (afterRun s) n rfl with ⟨-, hx, -⟩ | ⟨h9, -⟩ | ⟨x, -, hx, -, -⟩ | ⟨-, -, he⟩
      · rw [symbolAt_afterRun, h.unwritten] at hx; cases hx
      · omega
      · rw [symbolAt_afterRun, h.unwritten] at hx; cases hx
      · rw [he]; rfl
    · rw [attempt_head s n (by omega) hrun (h.head (by omega)), payload]
      have hb : bitdec n (afterHead s) = .refused (.unwrittenEntry k) :=
        bitScan_refused n h64 _ (k - 10) n.toNat 10 { afterHead s with phase := .bits, i := 10#7 } (by omega) (by omega)
          rfl (fun l h1 h2 => ⟨_, (symbolAt_congr l rfl rfl rfl rfl rfl).trans (h.payload l h1 (by omega))⟩)
          (by rw [show 10 + (k - 10) = k by omega]; exact (symbolAt_congr k rfl rfl rfl rfl rfl).trans h.unwritten)
      rw [hb]; rfl

/-- What a decode attempt can do (R121, R127): end in the closed form over the symbols it sees, or stop at an entry never
written (R32). -/
theorem attempt_cases (s : State) (n : Index) (h64 : n.toNat ≤ 64) :
    (∃ t, attempt n s = .next (t, (decodeClosed n.toNat (seen s)).2.2) ∧ t.ba = (decodeClosed n.toNat (seen s)).1 ∧
      t.pv = (decodeClosed n.toNat (seen s)).2.1 ∧ AttemptEnd s t) ∨
    ∃ k, Reaches n s k ∧ Memory.read s.tbuf k = none ∧ attempt n s = .refused (.unwrittenEntry k) := by
  have hfail : ∀ o t, attempt n s = .next (endAttempt t, o) → outcome2 n.toNat (seen s) = some o →
      t.ba = 0#47 → t.pv = 0#64 → AttemptEnd s (endAttempt t) →
      (∃ t, attempt n s = .next (t, (decodeClosed n.toNat (seen s)).2.2) ∧ t.ba = (decodeClosed n.toNat (seen s)).1 ∧
        t.pv = (decodeClosed n.toNat (seen s)).2.1 ∧ AttemptEnd s t) := by
    intro o t ht ho hba hpv hend
    have hcl : decodeClosed n.toNat (seen s) = (0#47, 0#64, o) := by simp [decodeClosed, ho]
    rw [hcl]
    exact ⟨endAttempt t, ht, hba, hpv, hend⟩
  have hrefuse : ∀ k, Reaches n s k → ∃ k, Reaches n s k ∧ Memory.read s.tbuf k = none ∧
      attempt n s = .refused (.unwrittenEntry k) := fun k hk =>
    ⟨k, hk, (symbolAt_refused hk.unwritten).2, attempt_refused s n k h64 hk⟩
  rcases syncdet_cases (clear s) n with ⟨hn, hs, -⟩ | ⟨c, x, h8, hn, hs, hx, hne, -⟩ | ⟨hn, hs, -⟩ | ⟨c, h8, hn, hs, hx, -⟩
  · simp only [symbolAt_clear] at hs
    have hrun : ∀ k, 1 ≤ k → k ≤ 8 → seen s k = .sync := fun k h1 h2 => seen_eq (hs k h1 h2)
    by_cases hno : n.toNat = 9 ∨ ∃ x, symbolAt s 9 = .next x ∧ x ≠ .head
    · refine .inl (hfail _ _ (attempt_noHead s n hn hs hno) ?_ rfl rfl ⟨rfl, rfl, rfl, rfl, rfl, rfl, rfl, rfl, rfl, rfl, rfl, rfl⟩)
      rw [outcome2_run n.toNat _ hn hrun, if_pos]
      rcases hno with h9 | ⟨x, hx, hne⟩
      · exact .inl h9.le
      · exact .inr (by rw [seen_eq hx]; exact hne)
    · have h9 : 9 < n.toNat := by have := mt Or.inl hno; omega
      rcases symbolAt_cases s 9 with hh | ⟨hh, -⟩
      · have hhead : symbolAt s 9 = .next .head := by
          by_contra hne
          exact hno (.inr ⟨_, hh, fun h => hne (by rw [hh, h])⟩)
        have hpass : outcome2 n.toNat (seen s) = none := by
          rw [outcome2_run n.toNat _ hn hrun, if_neg]
          rw [seen_eq hhead]
          simp; omega
        have hatt := attempt_head s n h9 hs hhead
        rcases bitdec_cases (afterHead s) n h64 (by omega) rfl rfl rfl with ⟨-, hb⟩ | ⟨k, h1, h2, hr, hpre, -⟩
        · left
          rw [seen_afterHead] at hb
          rw [payload, hb, andThen_next] at hatt
          have hcl : decodeClosed n.toNat (seen s) =
              if (checksum (payloadBits n.toNat (seen s))).accept then
                (payloadBits n.toNat (seen s), payloadValue n.toNat (seen s), .accept)
              else (0#47, 0#64, .csumFail) := by simp [decodeClosed, hpass]
          rw [hcl]
          rcases check_cases { afterHead s with
              phase := .bits, i := n, ba := payloadBits n.toNat (seen s), pv := payloadValue n.toNat (seen s) } with
            ⟨hacc, hck⟩ | ⟨hacc, hck⟩
          · rw [hck] at hatt
            rw [if_pos (show (checksum (payloadBits n.toNat (seen s))).accept = true from hacc)]
            exact ⟨_, hatt, rfl, rfl, ⟨rfl, rfl, rfl, rfl, rfl, rfl, rfl, rfl, rfl, rfl, rfl, rfl⟩⟩
          · rw [hck] at hatt
            have hacc' : (checksum (payloadBits n.toNat (seen s))).accept = false := hacc
            rw [if_neg (by simp [hacc'])]
            exact ⟨_, hatt, rfl, rfl, ⟨rfl, rfl, rfl, rfl, rfl, rfl, rfl, rfl, rfl, rfl, rfl, rfl⟩⟩
        · simp only [symbolAt_afterHead, seen_afterHead] at hpre
          rcases symbolAt_cases s k with h | ⟨h, -⟩
          · have hr' : Memory.read s.tbuf k = none := hr
            rw [symbolAt_eq] at h
            simp [readEntry, hr'] at h
          · exact .inr (hrefuse k ⟨by omega, h2, h, fun l hl1 _ hl2 => hs l hl1 hl2, fun _ => hhead, hpre⟩)
      · exact .inr (hrefuse 9 ⟨by omega, h9, hh, fun l hl1 _ hl2 => hs l hl1 hl2, fun h => by omega, fun l h1 h2 => by omega⟩)
  · simp only [symbolAt_clear] at hs hx
    exact .inl (hfail _ _ (attempt_break s n c x h8 hn hs hx hne)
      (outcome2_syncFail _ _ (c + 1) (by omega) (by omega) (.inr (by rw [seen_eq hx]; exact hne)))
      rfl rfl ⟨rfl, rfl, rfl, rfl, rfl, rfl, rfl, rfl, rfl, rfl, rfl, rfl⟩)
  · simp only [symbolAt_clear] at hs
    obtain ⟨c, hatt⟩ := attempt_short s n hn hs
    exact .inl (hfail _ _ hatt (outcome2_syncFail _ _ 8 (by omega) (by omega) (.inl hn))
      rfl rfl ⟨rfl, rfl, rfl, rfl, rfl, rfl, rfl, rfl, rfl, rfl, rfl, rfl⟩)
  · simp only [symbolAt_clear] at hs hx
    exact .inr (hrefuse (c + 1) ⟨by omega, hn, hx, fun l h1 h2 _ => hs l h1 (by omega), fun h => by omega,
      fun l h1 h2 => by omega⟩)

end Sys2Proof.Machine
end

