-- ==== Sys2Proof/Laws/Checksum.lean ====
section
/-! SUPPORT. Small laws of the checksum: the last round taken apart, the transmitted nibble bit by bit, and the XOR form under
one changed bit. -/

namespace Sys2Proof.Machine

/-- The rounds of R94, the last one taken apart. -/
theorem ckRounds_succ (r : Reordered) (k : Nat) (w : CkRegs) : ckRounds r (k + 1) w = ckRound r (ckRounds r k w) := by
  induction k generalizing w with
  | zero => rfl
  | succ k ih => rw [ckRounds, ih]; rfl

/-- The round counter counts the rounds. -/
theorem ckRounds_j (r : Reordered) (k : Nat) : (ckRounds r k ckStart).j = BitVec.ofNat 6 k := by
  induction k with
  | zero => rfl
  | succ k ih =>
    rw [ckRounds_succ, ckRound, ih, ← BitVec.toNat_inj]
    simp

/-- One round moves the mask of R96 one position on. -/
theorem feedback_maskAt (j : Nat) : feedback (maskAt j >>> 1) = maskAt (j + 1) := by
  have h : j % 3 = 0 ∧ (j + 1) % 3 = 1 ∨ j % 3 = 1 ∧ (j + 1) % 3 = 2 ∨ j % 3 = 2 ∧ (j + 1) % 3 = 0 := by omega
  rcases h with ⟨h, h'⟩ | ⟨h, h'⟩ | ⟨h, h'⟩ <;> simp only [maskAt, h, h'] <;> rfl

/-- Bit `k` of the transmitted checksum is cell `8 + k` (R91). -/
theorem getLsbD_transmitted (ba : BitArray) (k : Nat) (hk : k < 4) : (transmitted ba).getLsbD k = ba.getLsbD (8 + k) := by
  unfold transmitted rev
  rw [BitVec.getLsbD_ofNat, testBit_revSum]
  simp [hk]

/-- Acceptance compares the two nibbles (R95). -/
theorem checksum_accept (ba : BitArray) : (checksum ba).accept = ((checksum ba).acc == (checksum ba).tx) := rfl

end Sys2Proof.Machine
end

