-- ==== Sys2Proof/Laws/Exec.lean ====
section
/-! SUPPORT. What a command and a step can do, said once: every command but DECODE answers at once and touches working registers
at most, DECODE answers after an attempt or is illegal, and a step is one of six things. -/

namespace Sys2Proof.Machine

/-! ### Operands -/

theorem toNat_lengthOf (x : Operand) : (lengthOf x).toNat = x.toNat % 128 := by
  simp [lengthOf, BitVec.extractLsb'_toNat]

theorem toNat_highBitsOf (x : Operand) : (highBitsOf x).toNat = x.toNat / 128 := by
  have := x.isLt
  simp [highBitsOf, BitVec.extractLsb'_toNat, Nat.shiftRight_eq_div_pow]
  omega

/-- The machine runs an attempt exactly for the operands that are well-formed. -/
theorem decodeLegal_iff (x : Operand) : decodeLegal x = (Instr.decode x).wellFormed := by
  have h : (highBitsOf x == 0#9) = (x.toNat / 128 == 0) := by
    rw [Bool.eq_iff_iff]
    simp [← BitVec.toNat_inj, toNat_highBitsOf]
  simp [decodeLegal, h, toNat_lengthOf, Instr.wellFormed, decodeHighBitsZero, decodeLengthInRange]

theorem lengthOf_le (x : Operand) (h : decodeLegal x = true) : (lengthOf x).toNat ≤ 64 := by
  simp only [decodeLegal, Bool.and_eq_true, decide_eq_true_eq] at h
  exact h.2

/-! ### Commands -/

/-- What a command other than DECODE does: it answers at once, on the state as it was or with its working registers used. -/
theorem exec_query (i : Instr) (s : State) (h : ∀ x, i ≠ .decode x) :
    ∃ r u, exec i s = .next (answer r u) ∧ (u = s ∨ u = forgetWorking (evaluate s)) := by
  cases i with
  | decode x => exact absurd rfl (h x)
  | chksum x => exact ⟨_, _, rfl, .inr rfl⟩
  | nop x => exact ⟨_, _, rfl, .inl rfl⟩
  | getId x => exact ⟨_, _, rfl, .inl rfl⟩
  | getBattery x => exact ⟨_, _, rfl, .inl rfl⟩
  | getChannel x => exact ⟨_, _, rfl, .inl rfl⟩
  | getTemperature x => exact ⟨_, _, rfl, .inl rfl⟩
  | getHumidity x => exact ⟨_, _, rfl, .inl rfl⟩
  | getStatus x => exact ⟨_, _, rfl, .inl rfl⟩
  | getPacket x => exact ⟨_, _, rfl, .inl rfl⟩
  | getBits x => exact ⟨_, _, rfl, .inl rfl⟩
  | classify x => exact ⟨_, _, rfl, .inl rfl⟩
  | reservedC x => exact ⟨_, _, rfl, .inl rfl⟩
  | reservedD x => exact ⟨_, _, rfl, .inl rfl⟩
  | reservedE x => exact ⟨_, _, rfl, .inl rfl⟩
  | reservedF x => exact ⟨_, _, rfl, .inl rfl⟩

/-- What DECODE does: illegal and unchanged, one attempt and the response 0, or a stop at an entry never written. -/
theorem exec_decode_cases (x : Operand) (s : State) :
    (decodeLegal x = false ∧ exec (.decode x) s = .next (respondIllegal s)) ∨
    (decodeLegal x = true ∧ ∃ t,
      attempt (lengthOf x) s = .next (t, (decodeClosed (lengthOf x).toNat (seen s)).2.2) ∧
      t.ba = (decodeClosed (lengthOf x).toNat (seen s)).1 ∧ t.pv = (decodeClosed (lengthOf x).toNat (seen s)).2.1 ∧
      AttemptEnd s t ∧ exec (.decode x) s = .next (respond 0#64 t)) ∨
    (decodeLegal x = true ∧ ∃ k, Reaches (lengthOf x) s k ∧ Memory.read s.tbuf k = none ∧
      exec (.decode x) s = .refused (.unwrittenEntry k)) := by
  cases hl : decodeLegal x with
  | false => exact .inl ⟨rfl, by simp [exec, execDecode, hl]⟩
  | true =>
    rcases attempt_cases s (lengthOf x) (lengthOf_le x hl) with ⟨t, ha, hb, hp, he⟩ | ⟨k, hk, hr, ha⟩
    · exact .inr (.inl ⟨rfl, t, ha, hb, hp, he, by simp [exec, execDecode, hl, ha]⟩)
    · exact .inr (.inr ⟨rfl, k, hk, hr, by simp [exec, execDecode, hl, ha]⟩)

/-- What no command does, whatever its outcome: it does not touch the thresholds, the host's list, the port or the buffer,
and it leaves the response channel with one response more. -/
theorem exec_next_frame {i : Instr} {s t : State} (h : exec i s = .next t) :
    t.tOne = s.tOne ∧ t.tZero = s.tZero ∧ t.tbuf = s.tbuf ∧ t.inputs = s.inputs ∧ t.portWrites = s.portWrites ∧
      t.busy = false ∧ ∃ r, t.rsp = some r ∧ t.received = s.received ++ [r] := by
  by_cases hd : ∃ x, i = .decode x
  · obtain ⟨x, rfl⟩ := hd
    rcases exec_decode_cases x s with ⟨-, he⟩ | ⟨-, u, -, -, -, hu, he⟩ | ⟨-, k, -, -, he⟩
    · rw [he] at h; cases h; simp
    · rw [he] at h; cases h
      simp [hu.tOne, hu.tZero, hu.tbuf, hu.inputs, hu.portWrites, hu.received]
    · rw [he] at h; cases h
  · obtain ⟨r, u, he, hu⟩ := exec_query i s fun x hx => hd ⟨x, hx⟩
    rw [he] at h; cases h
    rcases hu with rfl | rfl <;> simp

/-! ### The step -/

theorem step_idle {s : State} (h : s.inputs = []) : step s = .next (wait s) := by
  unfold step; rw [h]

theorem step_write {s : State} {w : PortWrite} {rest : List HostAction} (h : s.inputs = .write w :: rest) :
    step s = .next (hostWrite w rest s) := by
  unfold step; rw [h]

theorem step_reset {s : State} {rest : List HostAction} (h : s.inputs = .reset :: rest) :
    step s = .next (applyReset rest s) := by
  unfold step; rw [h]

theorem step_abandoned {s : State} {word : CmdWord} {during : List PortWrite} {rest : List HostAction}
    (h : s.inputs = .abandoned word during :: rest) (hb : s.busy = false) : step s = .next (abandon rest during s) := by
  unfold step; rw [h]; simp [State.cmdReady, hb]

theorem step_command {s : State} {word : CmdWord} {during : List PortWrite} {rest : List HostAction}
    (h : s.inputs = .command word during :: rest) (hb : s.busy = false) :
    step s = andThen (exec (decodeWord word) (accept rest during s)) fun t => .next (settle t) := by
  unfold step; rw [h]; simp [State.cmdReady, hb]; rfl

theorem step_blocked {s : State} {word : CmdWord} {during : List PortWrite} {rest : List HostAction}
    (h : s.inputs = .command word during :: rest ∨ s.inputs = .abandoned word during :: rest) (hb : s.busy = true) :
    step s = .next (wait s) := by
  unfold step
  rcases h with h | h <;> rw [h] <;> simp [State.cmdReady, hb]

/-- The step that ran a command, or the five in which none runs. -/
theorem step_next_cases {s t : State} (h : step s = .next t) :
    t = wait s ∨ (∃ w rest, s.inputs = .write w :: rest ∧ t = hostWrite w rest s) ∨
    (∃ rest, s.inputs = .reset :: rest ∧ t = applyReset rest s) ∨
    (∃ word during rest, s.inputs = .abandoned word during :: rest ∧ s.busy = false ∧ t = abandon rest during s) ∨
    ∃ word during rest u, s.inputs = .command word during :: rest ∧ s.busy = false ∧
      exec (decodeWord word) (accept rest during s) = .next u ∧ t = settle u := by
  cases hi : s.inputs with
  | nil => rw [step_idle hi] at h; cases h; exact .inl rfl
  | cons a rest =>
    cases a with
    | write w => rw [step_write hi] at h; cases h; exact .inr (.inl ⟨w, rest, rfl, rfl⟩)
    | reset => rw [step_reset hi] at h; cases h; exact .inr (.inr (.inl ⟨rest, rfl, rfl⟩))
    | abandoned word during =>
      cases hb : s.busy with
      | true => rw [step_blocked (.inr hi) hb] at h; cases h; exact .inl rfl
      | false =>
        rw [step_abandoned hi hb] at h; cases h
        exact .inr (.inr (.inr (.inl ⟨word, during, rest, rfl, rfl, rfl⟩)))
    | command word during =>
      cases hb : s.busy with
      | true => rw [step_blocked (.inl hi) hb] at h; cases h; exact .inl rfl
      | false =>
        rw [step_command hi hb] at h
        obtain ⟨u, hu, hs⟩ := andThen_eq_next h
        cases hs
        exact .inr (.inr (.inr (.inr ⟨word, during, rest, u, rfl, rfl, hu, rfl⟩)))

end Sys2Proof.Machine
end

