-- ==== Sys2Proof/Laws/PerInstr.lean ====
section
/-! SUPPORT. Statements about every command, made one constructor at a time. Family EncodedFields: the encoded word has the
command's opcode and operand in their fields, and the decoder makes that command of them. -/

namespace Sys2Proof.Laws

theorem opcodeOf_append (op : Opcode) (x : Operand) : opcodeOf (op ++ x) = op := BitVec.extractLsb'_append_eq_left

theorem operandOf_append (op : Opcode) (x : Operand) : operandOf (op ++ x) = x := BitVec.extractLsb'_append_eq_right

theorem ofFields_self (i : Instr) : ofFields i.opcode i.operand = i := by
  cases i <;> simp [ofFields, Instr.opcode, Instr.operand]

namespace EncodedFields

/-- The encoded word's fields are the command's, and they make the command again. -/
def Statement (i : Instr) : Prop :=
  opcodeOf (encode i) = i.opcode ∧ operandOf (encode i) = i.operand ∧ ofFields i.opcode i.operand = i

theorem nop (x : Operand) : Statement (.nop x) := ⟨opcodeOf_append _ _, operandOf_append _ _, ofFields_self _⟩
theorem decode (x : Operand) : Statement (.decode x) := ⟨opcodeOf_append _ _, operandOf_append _ _, ofFields_self _⟩
theorem getId (x : Operand) : Statement (.getId x) := ⟨opcodeOf_append _ _, operandOf_append _ _, ofFields_self _⟩
theorem getBattery (x : Operand) : Statement (.getBattery x) := ⟨opcodeOf_append _ _, operandOf_append _ _, ofFields_self _⟩
theorem getChannel (x : Operand) : Statement (.getChannel x) := ⟨opcodeOf_append _ _, operandOf_append _ _, ofFields_self _⟩
theorem getTemperature (x : Operand) : Statement (.getTemperature x) := ⟨opcodeOf_append _ _, operandOf_append _ _, ofFields_self _⟩
theorem getHumidity (x : Operand) : Statement (.getHumidity x) := ⟨opcodeOf_append _ _, operandOf_append _ _, ofFields_self _⟩
theorem getStatus (x : Operand) : Statement (.getStatus x) := ⟨opcodeOf_append _ _, operandOf_append _ _, ofFields_self _⟩
theorem getPacket (x : Operand) : Statement (.getPacket x) := ⟨opcodeOf_append _ _, operandOf_append _ _, ofFields_self _⟩
theorem getBits (x : Operand) : Statement (.getBits x) := ⟨opcodeOf_append _ _, operandOf_append _ _, ofFields_self _⟩
theorem classify (x : Duration) : Statement (.classify x) := ⟨opcodeOf_append _ _, operandOf_append _ _, ofFields_self _⟩
theorem chksum (x : Operand) : Statement (.chksum x) := ⟨opcodeOf_append _ _, operandOf_append _ _, ofFields_self _⟩
theorem reservedC (x : Operand) : Statement (.reservedC x) := ⟨opcodeOf_append _ _, operandOf_append _ _, ofFields_self _⟩
theorem reservedD (x : Operand) : Statement (.reservedD x) := ⟨opcodeOf_append _ _, operandOf_append _ _, ofFields_self _⟩
theorem reservedE (x : Operand) : Statement (.reservedE x) := ⟨opcodeOf_append _ _, operandOf_append _ _, ofFields_self _⟩
theorem reservedF (x : Operand) : Statement (.reservedF x) := ⟨opcodeOf_append _ _, operandOf_append _ _, ofFields_self _⟩

end EncodedFields

end Sys2Proof.Laws
end

