-- ==== Sys2Proof/Tests/Slice0.lean ====
section
/-! SUPPORT. The model's own tests: words written out from the spec's encoding, the checks of well-formedness, small runs of one
command with results taken from the spec's rules and from 95_test_vectors.md, and for every obligation with hypotheses a
named witness that meets them. -/

namespace Sys2Proof.Tests

open Sys2Proof.Machine

/-! ### Decoding: one word per constructor, from R52, R54, R59 and the words of 95_test_vectors.md -/

theorem test_decode_nop : decodeWord 0b0000_0000000000000000#20 = .nop 0 := by decide
theorem test_decode_decode : decodeWord 0b0001_0000000000110010#20 = .decode 50 := by decide
theorem test_decode_getId : decodeWord 0b0010_0000000000000000#20 = .getId 0 := by decide
theorem test_decode_getBattery : decodeWord 0b0011_0000000000000000#20 = .getBattery 0 := by decide
theorem test_decode_getChannel : decodeWord 0b0100_0000000000000000#20 = .getChannel 0 := by decide
theorem test_decode_getTemperature : decodeWord 0b0101_0000000000000000#20 = .getTemperature 0 := by decide
theorem test_decode_getHumidity : decodeWord 0b0110_0000000000000000#20 = .getHumidity 0 := by decide
theorem test_decode_getStatus : decodeWord 0b0111_0000000000000000#20 = .getStatus 0 := by decide
theorem test_decode_getPacket : decodeWord 0b1000_0000000000000000#20 = .getPacket 0 := by decide
theorem test_decode_getBits : decodeWord 0b1001_0000000000000000#20 = .getBits 0 := by decide
theorem test_decode_classify : decodeWord 0b1010_0000000100101100#20 = .classify 300 := by decide
theorem test_decode_chksum : decodeWord 0b1011_0000000000000000#20 = .chksum 0 := by decide
theorem test_decode_reservedC : decodeWord 0b1100_0000000000000000#20 = .reservedC 0 := by decide
theorem test_decode_reservedD : decodeWord 0b1101_1000000000000001#20 = .reservedD 0x8001 := by decide
theorem test_decode_reservedE : decodeWord 0b1110_0000000000000000#20 = .reservedE 0 := by decide
theorem test_decode_reservedF : decodeWord 0b1111_1111111111111111#20 = .reservedF 0xFFFF := by decide

theorem test_tableWord_decode : decodeTableWord 24 0x10041 = some (.decode 65) := by decide
theorem test_wide_number_rejected : (match decodeBits (2 ^ 20) with | .ok _ => false | .error e => e == .widerThanCommandWord) = true := by
  decide

/-! ### Well-formedness: one ill-formed command per check, refused (R53, R55, R122) -/

theorem test_illFormed_highBits : (Instr.decode 0x0080).wellFormed = false := by decide
theorem test_illFormed_length : (Instr.decode 65).wellFormed = false := by decide
theorem test_illFormed_reservedC : (Instr.reservedC 0).wellFormed = false := by decide
theorem test_illFormed_reservedD : (Instr.reservedD 0).wellFormed = false := by decide
theorem test_illFormed_reservedE : (Instr.reservedE 0).wellFormed = false := by decide
theorem test_illFormed_reservedF : (Instr.reservedF 0).wellFormed = false := by decide
theorem test_wellFormed_longest : (Instr.decode 64).wellFormed = true := by decide

/-! ### States of the tests -/

/-- The entries of a frame, from index `k` up. -/
def frameFrom : Nat → List Nat → Memory
  | _, [] => []
  | k, d :: ds => (k, BitVec.ofNat 16 d) :: frameFrom (k + 1) ds

/-- An idle core in the configuration EX1 of 95_test_vectors.md (`T_ONE = 3000`, `T_ZERO = 1500`) with these entries. -/
def ex1 (m : Memory) : State := { State.reset with tOne := 3000#16, tZero := 1500#16, tbuf := m }

/-- `BA` of the reference packet V1 of 95_test_vectors.md. -/
def baV1 : BitArray := 0x454550060A#47

/-- `PV` of the reference packet V1. -/
def pvV1 : PacketValue := 0x50600AA2A2#64

/-- The state after an accepted DECODE of V1, with these entries. -/
def holdsV1 (m : Memory) : State := { ex1 m with ba := baV1, pv := pvV1 }

/-- The entries before the payload: a dummy, eight SYNC pulses and the HEAD. -/
def preamble : List Nat := [123, 1000, 1000, 1000, 1000, 1000, 1000, 1000, 1000, 7900]

/-- The payload entries of the V1 frame. -/
def payloadV1 : List Nat :=
  [2000, 4000, 2000, 4000, 2000, 2000, 2000, 2000, 2000, 4000, 4000, 2000, 2000, 2000, 2000, 2000, 2000, 2000, 2000, 2000] ++
  [4000, 2000, 4000, 2000, 4000, 2000, 4000, 2000, 2000, 2000, 4000, 2000, 4000, 2000, 4000, 2000, 2000, 2000, 4000, 2000]

/-- The V1 frame. -/
def frameV1 : Memory := frameFrom 0 (preamble ++ payloadV1)

/-- `s` with one command presented. -/
def presenting (w : CmdWord) (s : State) : State := { s with inputs := [.command w []] }

/-- Whether a step or a command has a next state. -/
def isNext {α : Type} (o : Host.Outcome α Fault Refusal) : Bool :=
  match o with
  | .next _ => true
  | .fault _ => false
  | .refused _ => false

/-- The index of the unwritten entry at which a step or a command is refused. -/
def refusedAt {α : Type} (o : Host.Outcome α Fault Refusal) : Option Nat :=
  match o with
  | .refused (.unwrittenEntry k) => some k
  | .refused (.notModelled _) => none
  | .next _ => none
  | .fault _ => none

/-- A property of the next state. -/
def holdsNext {α : Type} (o : Host.Outcome α Fault Refusal) (p : α → Bool) : Bool :=
  match o with
  | .next t => p t
  | .fault _ => false
  | .refused _ => false

theorem isNext_iff {α : Type} {o : Host.Outcome α Fault Refusal} (h : isNext o = true) : ∃ t, o = .next t := by
  cases o with
  | next t => exact ⟨t, rfl⟩
  | fault r => cases h
  | refused r => cases h

/-- The next state is its own witness. -/
theorem next_of_holds {α : Type} {o : Host.Outcome α Fault Refusal} {p : α → Bool} (h : holdsNext o p = true) :
    ∃ t, o = .next t ∧ p t = true := by
  cases o with
  | next t => exact ⟨t, rfl, h⟩
  | fault r => cases h
  | refused r => cases h

/-- Whether the core sees this symbol at entry `k`. -/
def sees (s : State) (k : Nat) (x : Symbol) : Bool := holdsNext (symbolAt s k) fun y => y == x

theorem symbolAt_of_sees {s : State} {k : Nat} {x : Symbol} (h : sees s k x = true) : symbolAt s k = .next x := by
  obtain ⟨y, hy, hx⟩ := next_of_holds h
  rw [hy, eq_of_beq hx]

/-- Entries as a function. -/
def entryOf (s : State) (k : Nat) : Duration := (Memory.read s.tbuf k).getD 0

/-- Whether the entries 1 to `n - 1` are written. -/
def written (n : Nat) (s : State) : Bool := (List.range n).all fun k => k == 0 || (Memory.read s.tbuf k).isSome

theorem duty_of_written {n : Nat} {s : State} (hp : s.portWrites = []) (h : written n s = true) :
    hostDuty n (entryOf s) s := by
  refine ⟨hp, fun k h1 hk => ?_⟩
  have := List.all_eq_true.1 h k (List.mem_range.2 hk)
  simp only [Bool.or_eq_true, beq_iff_eq] at this
  rcases this with h0 | hs
  · omega
  · obtain ⟨d, hd⟩ := Option.isSome_iff_exists.1 hs
    simp [entryOf, hd]

/-- Whether the SYNC run is seen complete. -/
def seesRun (s : State) (n : Nat) : Bool := (List.range n).all fun k => k == 0 || sees s k .sync

theorem run_of_sees {s : State} {n : Nat} (h : seesRun s n = true) : ∀ l, 1 ≤ l → l < n → symbolAt s l = .next .sync := by
  intro l h1 hl
  have := List.all_eq_true.1 h l (List.mem_range.2 hl)
  simp only [Bool.or_eq_true, beq_iff_eq] at this
  rcases this with h0 | hs
  · omega
  · exact symbolAt_of_sees hs

/-! ### The commands, results from R112, R128, R55 and the programs P1, P2, P5 of 95_test_vectors.md -/

theorem test_nop_responds_zero : answerOf (.nop 0xFFFF) (holdsV1 []) = some 0#64 := by decide
set_option maxRecDepth 8000 in
theorem test_decode_v1 : holdsNext (exec (.decode 50) (ex1 frameV1))
    (fun t => t.ba == baV1 && t.pv == pvV1 && t.rsp == some ⟨0#64, false⟩) = true := by decide
theorem test_decode_65_is_illegal : holdsNext (exec (.decode 65) (holdsV1 frameV1))
    (fun t => t.ba == baV1 && t.rsp == some ⟨0#64, true⟩) = true := by decide
theorem test_getId_v1 : answerOf (.getId 0) (holdsV1 []) = some 0xA#64 := by decide
theorem test_getId_p5 : answerOf (.getId 0) { ex1 [] with ba := 0xD0A1F436A7#47 } = some 0xA7#64 := by decide
theorem test_getBattery_zero_is_ok : answerOf (.getBattery 0) (ex1 []) = some 1#64 := by decide
theorem test_getBattery_p5_is_low : answerOf (.getBattery 0) { ex1 [] with ba := 0xD0A1F436A7#47 } = some 0#64 := by decide
theorem test_getChannel_p5 : answerOf (.getChannel 0) { ex1 [] with ba := 0xD0A1F436A7#47 } = some 3#64 := by decide
theorem test_getTemperature_zero : answerOf (.getTemperature 0) (ex1 []) = some 0xFFFFFFFFFFFFE82C#64 := by decide
theorem test_getTemperature_p5 :
    answerOf (.getTemperature 0) { ex1 [] with ba := 0xD0A1F436A7#47 } = some 0xFFFFFFFFFFFFF1F0#64 := by decide
theorem test_getHumidity_v1 : answerOf (.getHumidity 0) (holdsV1 []) = some 0x2D#64 := by decide
theorem test_getHumidity_p5 : answerOf (.getHumidity 0) { ex1 [] with ba := 0xD0A1F436A7#47 } = some 0x64#64 := by decide
theorem test_getStatus_zero : answerOf (.getStatus 0) (ex1 []) = some 2#64 := by decide
theorem test_getStatus_p5 : answerOf (.getStatus 0) { ex1 [] with ba := 0xD0A1F436A7#47 } = some 0#64 := by decide
theorem test_getPacket_v1 : answerOf (.getPacket 0) (holdsV1 []) = some 0x50600AA2A2#64 := by decide
theorem test_getBits_v1 : answerOf (.getBits 0) (holdsV1 []) = some 0x454550060A#64 := by decide
theorem test_classify_1100_is_noise : answerOf (.classify 1100) (ex1 []) = some 0#64 := by decide
theorem test_classify_8689_is_head : answerOf (.classify 8689) (ex1 []) = some 4#64 := by decide
theorem test_chksum_v1 : answerOf (.chksum 0) (holdsV1 []) = some 0x661#64 := by decide
theorem test_chksum_zero : answerOf (.chksum 0) (ex1 []) = some 0x001#64 := by decide
theorem test_reservedC_illegal : holdsNext (exec (.reservedC 0) (holdsV1 [])) (fun t => t.rsp == some ⟨0#64, true⟩) = true := by
  decide
theorem test_reservedD_illegal : holdsNext (exec (.reservedD 0) (holdsV1 [])) (fun t => t.rsp == some ⟨0#64, true⟩) = true := by
  decide
theorem test_reservedE_illegal : holdsNext (exec (.reservedE 0) (holdsV1 [])) (fun t => t.rsp == some ⟨0#64, true⟩) = true := by
  decide
theorem test_reservedF_illegal : holdsNext (exec (.reservedF 0) (holdsV1 [])) (fun t => t.rsp == some ⟨0#64, true⟩) = true := by
  decide

/-- The first step after reset runs the command placed there, also a DECODE too short to read an entry. -/
theorem test_step_runs_after_reset :
    holdsNext (step (State.reset.withFetchWord 24 0x30000)) (fun t => t.rsp == some ⟨1#64, false⟩) = true ∧
    holdsNext (step (State.reset.withFetchWord 24 0x10001)) (fun t => t.rsp == some ⟨0#64, false⟩) = true := by decide

/-! ### Witnesses for the obligations' hypotheses -/

set_option maxRecDepth 8000 in
/-- `StepKeepsInvariant`: a state that holds an accepted packet, and whose step runs a DECODE of a frame. -/
theorem witness_StepKeepsInvariant : (presenting 0x10032#20 (holdsV1 frameV1)).Inv ∧
    ∃ t, step (presenting 0x10032#20 (holdsV1 frameV1)) = .next t :=
  ⟨⟨⟨rfl, rfl, rfl, rfl, rfl, rfl⟩, by decide, by decide, fun h => absurd h (by decide), by decide⟩, isNext_iff (by decide)⟩

/-- `StepRefusesOnlyUnwrittenEntry`: a step that is refused, at the first entry the scan reads. -/
theorem witness_StepRefusesOnlyUnwrittenEntry : refusedAt (step (presenting 0x10032#20 (ex1 []))) = some 1 := by decide

/-- `StepRunsDecodedCommand`, and clause 1 of `EveryCommandAnswersOnce`: the core is ready and a command is presented. -/
theorem witness_StepRunsDecodedCommand : (presenting 0xB0000#20 (holdsV1 [])).inputs = [.command 0xB0000#20 []] ∧
    (presenting 0xB0000#20 (holdsV1 [])).busy = false ∧ isNext (step (presenting 0xB0000#20 (holdsV1 []))) = true := by decide

/-- `StepWithoutCommand`: nothing to do, a command at a busy core, one there that would be reset away, a write of the last
entry. -/
theorem witness_StepWithoutCommand : (ex1 []).inputs = [] ∧
    { presenting 0#20 (ex1 []) with busy := true }.inputs = [.command 0#20 []] ∧
    { presenting 0#20 (ex1 []) with busy := true }.busy = true ∧
    { ex1 [] with busy := true, inputs := [.abandoned 0#20 [⟨0#6, 1#16⟩]] }.inputs = [.abandoned 0#20 [⟨0#6, 1#16⟩]] ∧
    { ex1 [] with busy := true, inputs := [.abandoned 0#20 [⟨0#6, 1#16⟩]] }.busy = true ∧
    { ex1 [] with inputs := [.write ⟨63#6, 5#16⟩] }.inputs = [.write ⟨63#6, 5#16⟩] := by decide

/-- `RstPutsCoreInResetState`: reset of a core that holds a packet. -/
theorem witness_RstPutsCoreInResetState : { holdsV1 frameV1 with inputs := [.reset] }.inputs = [.reset] ∧
    { holdsV1 frameV1 with inputs := [.reset] }.ba ≠ 0#47 := by decide

/-- `AbandonedCommandGivesNoResponse`: a DECODE reset away while the host writes entry 0. -/
theorem witness_AbandonedCommandGivesNoResponse :
    { holdsV1 frameV1 with inputs := [.abandoned 0x10032#20 [⟨0#6, 7#16⟩]] }.inputs =
      [.abandoned 0x10032#20 [⟨0#6, 7#16⟩]] ∧
    { holdsV1 frameV1 with inputs := [.abandoned 0x10032#20 [⟨0#6, 7#16⟩]] }.busy = false := by decide

/-- Clause 2 of `EveryCommandAnswersOnce`: a step that takes no command, and one at a busy core. -/
theorem witness_EveryCommandAnswersOnce :
    ((∀ word during rest, { ex1 [] with inputs := [.reset] }.inputs = .command word during :: rest →
        { ex1 [] with inputs := [.reset] }.busy = true) ∧ ∃ t, step { ex1 [] with inputs := [.reset] } = .next t) ∧
    { presenting 0#20 (ex1 []) with busy := true }.busy = true ∧
    ∃ t, step { presenting 0#20 (ex1 []) with busy := true } = .next t :=
  ⟨⟨fun _ _ _ h => (by cases h), isNext_iff (by decide)⟩, rfl, isNext_iff (by decide)⟩

/-- `ThresholdsNeverChange`: a step with a next state. -/
theorem witness_ThresholdsNeverChange : ∃ t, step (ex1 frameV1) = .next t := isNext_iff (by decide)

/-- `OnlyHostWritesTimingBuffer`: a DECODE with a next state, and a step that changes entry 63. -/
theorem witness_OnlyHostWritesTimingBuffer : (∃ t, exec (.decode 0) (ex1 frameV1) = .next t) ∧
    ∃ t : State, step { ex1 [] with inputs := [.write ⟨63#6, 5#16⟩] } = .next t ∧
      (Memory.read t.tbuf 63 != Memory.read { ex1 [] with inputs := [.write ⟨63#6, 5#16⟩] }.tbuf 63) = true :=
  ⟨isNext_iff (by decide), next_of_holds (p := fun t : State => Memory.read t.tbuf 63 !=
    Memory.read { ex1 [] with inputs := [.write ⟨63#6, 5#16⟩] }.tbuf 63) (by decide)⟩

set_option maxRecDepth 8000 in
/-- `DecodeFrame`: a DECODE that accepts a packet. -/
theorem witness_DecodeFrame : ∃ t, exec (.decode 50) (ex1 frameV1) = .next t := isNext_iff (by decide)

/-- `OpcodeMapSelectsOneRow`: the first and the last row of the map, and words that select them. -/
theorem witness_OpcodeMapSelectsOneRow :
    (⟨"NOP", 0x00000#20, 0xF0000#20⟩ : OpcodeRow) ∈ opcodeTable ∧
    (⟨"NOP", 0x00000#20, 0xF0000#20⟩ : OpcodeRow).selects 0x0FFFF#20 = true ∧
    (⟨"RESERVED_F", 0xF0000#20, 0xF0000#20⟩ : OpcodeRow) ∈ opcodeTable ∧
    (⟨"RESERVED_F", 0xF0000#20, 0xF0000#20⟩ : OpcodeRow).selects 0xF0000#20 = true := by decide

/-- `IllegalCommandsChangeNothing`: the illegal words next to the legal ones, and a next state of a legal and of an illegal
command. -/
theorem witness_IllegalCommandsChangeNothing :
    (decodeWord 0xC0000#20).wellFormed = false ∧ (decodeWord 0x10041#20).wellFormed = false ∧
    (decodeWord 0x10080#20).wellFormed = false ∧ (decodeWord 0xBFFFF#20).wellFormed = true ∧
    (decodeWord 0x10040#20).wellFormed = true ∧ isNext (exec (decodeWord 0xBFFFF#20) (ex1 [])) = true ∧
    isNext (exec (decodeWord 0x10041#20) (ex1 [])) = true := by decide

/-- `OnlyLegalDecodeChangesPacket`: a query, and an illegal DECODE; the other command being a query. -/
theorem witness_OnlyLegalDecodeChangesPacket :
    ((∀ x, Instr.chksum 0 = .decode x → (Instr.chksum 0).wellFormed = false) ∧
      ∃ t, exec (.chksum 0) (holdsV1 []) = .next t) ∧
    ((∀ x, Instr.decode 65 = .decode x → (Instr.decode 65).wellFormed = false) ∧
      ∃ t, exec (.decode 65) (holdsV1 []) = .next t) ∧
    ∀ x, Instr.getId 0 ≠ .decode x :=
  ⟨⟨fun _ h => (by cases h), isNext_iff (by decide)⟩, ⟨fun _ _ => (by decide), isNext_iff (by decide)⟩, fun _ h => by cases h⟩

/-- `ZeroArrayAnswers`, `ZeroPayloadIsAccepted`: a zero `BA`, and one that differs from it outside cells 0 to 39 only. -/
theorem witness_ZeroArrayAnswers : (ex1 []).ba = 0#47 ∧ (0x7F0000000000#47 : BitArray) ≠ 0#47 ∧
    ∀ k, k < 40 → (0x7F0000000000#47 : BitArray).getLsbD k = false := by decide

/-- `QueriesReadOnlyTheirCells`: for each clause two arrays that agree on its cells and differ right beside them. -/
theorem witness_QueriesReadOnlyTheirCells :
    (∀ k, k ≤ 7 → (0#47 : BitArray).getLsbD k = (0x100#47 : BitArray).getLsbD k) ∧
    (0#47 : BitArray).getLsbD 13 = (0x5000#47 : BitArray).getLsbD 13 ∧
    (∀ k, k ≤ 39 → 38 ≤ k → (0#47 : BitArray).getLsbD k = (0x12000000000#47 : BitArray).getLsbD k) ∧
    (∀ k, k ≤ 27 → 16 ≤ k → (0#47 : BitArray).getLsbD k = (0x10008000#47 : BitArray).getLsbD k) ∧
    (∀ k, k ≤ 35 → 28 ≤ k → (0#47 : BitArray).getLsbD k = (0x1008000000#47 : BitArray).getLsbD k) ∧
    (∀ k, k ≤ 35 → 16 ≤ k → (0#47 : BitArray).getLsbD k = (0x1000008000#47 : BitArray).getLsbD k) ∧
    (∀ k, k ≤ 39 → (0#47 : BitArray).getLsbD k = (0x10000000000#47 : BitArray).getLsbD k) ∧
    ∀ k, k ≤ 46 → (baV1 : BitArray).getLsbD k = (baV1 : BitArray).getLsbD k := by decide

/-- `ClassifyCornerCases`: each clause at the ends of its range. -/
theorem witness_ClassifyCornerCases : (900#16).toNat = 900 ∧ (8690#16).toNat = 8690 ∧ (901#16).toNat = 901 ∧
    (1099#16).toNat = 1099 ∧ (7111#16).toNat = 7111 ∧ (8689#16).toNat = 8689 ∧
    8690 < (8691#16).toNat ∧ (3000#16).toNat < (8691#16).toNat ∧ (1500#16).toNat ≤ (1500#16).toNat ∧
    (65535#16).toNat = 65535 := by decide

/-- `RevIsReversedRead`: the whole array, one cell, and bits at both ends. -/
theorem witness_RevIsReversedRead : 0 ≤ 46 ∧ 46 ≤ 46 ∧ rev (0x400000000001#47) 0 46 = 0x400000000001 ∧
    rev (0x400000000000#47) 46 46 = 1 := by decide

/-- `ReorderedCopyOfCells`, `ChecksumClosedForm`: the positions at the ends of their ranges; round 35 is the last. -/
theorem witness_ReorderedCopyOfCells : 7 ≤ 7 ∧ 3 ≤ 3 ∧ 23 ≤ 23 ∧ 35 < 36 ∧
    (reorder 0x1000000000#47).getLsbD 8 = true ∧ (reorder 0x800000000#47).getLsbD 35 = true := by decide

/-- `SingleCellFlips`, `ChecksumWeaknesses`: cells at the ends of each range, an accepted array, an array with cell 8 set, and
two cells of equal position modulo 3. -/
theorem witness_SingleCellFlips : (7 ≤ 7 ∨ (12 ≤ 7 ∧ 7 ≤ 35)) ∧ (35 ≤ 7 ∨ (12 ≤ 35 ∧ 35 ≤ 35)) ∧ (36 ≤ 36 ∧ 36 ≤ 39) ∧
    (8 ≤ 11 ∧ 11 ≤ 11) ∧ (40 ≤ 46 ∧ 46 ≤ 46) ∧ (checksum baV1).accept = true ∧ (0x100#47 : BitArray).getLsbD 8 = true ∧
    (if 36 < 36 then 36 else 36 - 28) % 3 = (if 35 < 36 then 35 else 35 - 28) % 3 := by decide

/-- `PulseWritesCellAndShifts`: the last cell, and the first index beyond it. -/
theorem witness_PulseWritesCellAndShifts :
    (({ ex1 [] with i := 56#7, offset := 10#7 } : State).i - ({ ex1 [] with i := 56#7, offset := 10#7 } : State).offset).toNat = 46 ∧
    (({ ex1 [] with i := 57#7, offset := 10#7 } : State).i - ({ ex1 [] with i := 57#7, offset := 10#7 } : State).offset).toNat = 47 ∧
    (45 : Nat) ≠ 46 := by decide

/-- A frame of the greatest length: 54 payload entries, all ONE. -/
def frameLong : Memory := frameFrom 0 (preamble ++ List.replicate 54 4000)

set_option maxRecDepth 8000 in
/-- `BitdecClosedForm`: the longest sequence, and the shortest with a payload range. -/
theorem witness_BitdecClosedForm :
    (10 ≤ (64#7 : Index).toNat ∧ (64#7 : Index).toNat ≤ 64 ∧ { ex1 frameLong with offset := 10#7 }.offset = 10#7 ∧
      hostDuty (64#7 : Index).toNat (entryOf { ex1 frameLong with offset := 10#7 }) { ex1 frameLong with offset := 10#7 }) ∧
    hostDuty (10#7 : Index).toNat (entryOf { ex1 frameLong with offset := 10#7 }) { ex1 frameLong with offset := 10#7 } :=
  ⟨⟨by decide, by decide, rfl, duty_of_written rfl (by decide)⟩, duty_of_written rfl (by decide)⟩

set_option maxRecDepth 8000 in
/-- `BrokenSyncRunAborts`: the first entry breaks the run (nothing else is written), and the eighth does (vector SD7). -/
theorem witness_BrokenSyncRunAborts :
    ((1 < (64#7 : Index).toNat ∧ ∀ l, 1 ≤ l → l < 1 → symbolAt (ex1 [(1, 300#16)]) l = .next .sync) ∧
      symbolAt (ex1 [(1, 300#16)]) 1 = .next .noise ∧ Symbol.noise ≠ .sync) ∧
    ((8 < (9#7 : Index).toNat ∧ ∀ l, 1 ≤ l → l < 8 →
        symbolAt (ex1 (frameFrom 1 [1000, 1000, 1000, 1000, 1000, 1000, 1000, 1100])) l = .next .sync) ∧
      symbolAt (ex1 (frameFrom 1 [1000, 1000, 1000, 1000, 1000, 1000, 1000, 1100])) 8 = .next .noise) :=
  ⟨⟨⟨by decide, fun l h1 h2 => by omega⟩, symbolAt_of_sees (by decide), by decide⟩,
    ⟨by decide, run_of_sees (by decide)⟩, symbolAt_of_sees (by decide)⟩

set_option maxRecDepth 8000 in
/-- `ShortSyncRunAborts`: eight entries, seven of them SYNC pulses behind the dummy; and no entry at all. -/
theorem witness_ShortSyncRunAborts :
    ((8#7 : Index).toNat ≤ 8 ∧ ∀ l, 1 ≤ l → l < (8#7 : Index).toNat → symbolAt (ex1 frameV1) l = .next .sync) ∧
    (0#7 : Index).toNat ≤ 8 ∧ ∀ l, 1 ≤ l → l < (0#7 : Index).toNat → symbolAt (ex1 []) l = .next .sync :=
  ⟨⟨by decide, run_of_sees (by decide)⟩, by decide, fun l h1 h2 => absurd h2 (Nat.not_lt_zero l)⟩

set_option maxRecDepth 8000 in
/-- `MissingHeadAborts`: the sequence ends at the HEAD, and a SYNC pulse stands there (vectors SD5, SD16). -/
theorem witness_MissingHeadAborts :
    (8 < (9#7 : Index).toNat ∧ (∀ l, 1 ≤ l → l < 9 → symbolAt (ex1 frameV1) l = .next .sync) ∧ (9#7 : Index).toNat = 9) ∧
    (∀ l, 1 ≤ l → l < 9 → symbolAt (ex1 (frameFrom 0 (List.replicate 10 1000))) l = .next .sync) ∧
    symbolAt (ex1 (frameFrom 0 (List.replicate 10 1000))) 9 = .next .sync ∧ Symbol.sync ≠ .head :=
  ⟨⟨by decide, run_of_sees (by decide), by decide⟩, run_of_sees (by decide), symbolAt_of_sees (by decide), by decide⟩

set_option maxRecDepth 8000 in
/-- `AttemptIsClosedForm`, `DecodeCompletes`: a frame of the longest DECODE. -/
theorem witness_AttemptIsClosedForm : (64#7 : Index).toNat ≤ 64 ∧
    hostDuty (64#7 : Index).toNat (entryOf (ex1 frameLong)) (ex1 frameLong) :=
  ⟨by decide, duty_of_written rfl (by decide)⟩

set_option maxRecDepth 8000 in
/-- `DecodeCompletes`: the V1 frame. -/
theorem witness_DecodeCompletes : (Instr.decode 50).wellFormed = true ∧
    hostDuty ((50#16 : Operand).toNat % 128) (entryOf (ex1 frameV1)) (ex1 frameV1) :=
  ⟨by decide, duty_of_written rfl (by decide)⟩

set_option maxRecDepth 8000 in
/-- `AttemptEndStates`, `NonzeroPacketMeansAccepted`: an accepted attempt, and one that fails. -/
theorem witness_AttemptEndStates :
    (∃ p, attempt 50#7 (ex1 frameV1) = .next p ∧ (p.2 == .accept && p.1.ba == baV1 && p.1.pv != 0#64) = true) ∧
    (∃ p, attempt 9#7 (ex1 frameV1) = .next p ∧ (p.2 == .headFail) = true) ∧ (Instr.decode 65).wellFormed = false :=
  ⟨next_of_holds (by decide), next_of_holds (by decide), by decide⟩

set_option maxRecDepth 8000 in
/-- `AttemptEndStates`: the payload entries are seen as the symbols they hold. -/
theorem witness_AttemptEndStates_symbols : ∀ k, 10 ≤ k → k < 50 →
    symbolAt (ex1 frameV1) k = .next (symbolsOf (ex1 frameV1) (entryOf (ex1 frameV1)) k) := by
  intro k h1 h2
  exact symbolAt_quiet _ k _ rfl ((duty_of_written (n := 50) rfl (by decide : written 50 (ex1 frameV1) = true)).2 k (by omega) h2)

set_option maxRecDepth 8000 in
/-- Clause 2 of `NonzeroPacketMeansAccepted`: a run and a HEAD are seen. -/
theorem witness_NonzeroPacketMeansAccepted :
    (∀ l, 1 ≤ l → l < 9 → symbolAt (ex1 frameV1) l = .next .sync) ∧ symbolAt (ex1 frameV1) 9 = .next .head :=
  ⟨run_of_sees (by decide), symbolAt_of_sees (by decide)⟩

/-- The frame of program P6 with two pulses more: ZERO pulses and, last, one that is skipped. -/
def frameZeros : Memory := frameFrom 0 (preamble ++ List.replicate 53 2000 ++ [500])

/-- Whether a symbol test holds for the indices from `lo` to below `n`. -/
def symbolsAll (s : State) (lo n : Nat) (p : Symbol → Bool) : Bool :=
  (List.range n).all fun k => decide (k < lo) || p (symbolsOf s (entryOf s) k)

theorem symbols_of_all {s : State} {lo n : Nat} {p : Symbol → Bool} (h : symbolsAll s lo n p = true) :
    ∀ l, lo ≤ l → l < n → p (symbolsOf s (entryOf s) l) = true := by
  intro l h1 h2
  have := List.all_eq_true.1 h l (List.mem_range.2 h2)
  simp only [Bool.or_eq_true, decide_eq_true_eq] at this
  rcases this with h | h
  · omega
  · exact h

set_option maxRecDepth 8000 in
/-- `PayloadWithoutOnesIsAccepted`: 54 payload entries without a ONE. -/
theorem witness_PayloadWithoutOnesIsAccepted :
    hostDuty (64#7 : Index).toNat (entryOf (ex1 frameZeros)) (ex1 frameZeros) ∧
    (∀ l, 1 ≤ l → l < 9 → (symbolsOf (ex1 frameZeros) (entryOf (ex1 frameZeros)) l == .sync) = true) ∧
    symbolsOf (ex1 frameZeros) (entryOf (ex1 frameZeros)) 9 = .head ∧
    ∀ l, 10 ≤ l → l < (64#7 : Index).toNat → (symbolsOf (ex1 frameZeros) (entryOf (ex1 frameZeros)) l != .one) = true :=
  ⟨duty_of_written rfl (by decide), symbols_of_all (p := fun x => x == .sync) (by decide), by decide,
    symbols_of_all (p := fun x => x != .one) (by decide)⟩

set_option maxRecDepth 8000 in
/-- `CleanPayloadMirroredInAccumulator`: the V1 frame. -/
theorem witness_CleanPayloadMirroredInAccumulator : 10 ≤ (50#7 : Index).toNat ∧ (50#7 : Index).toNat ≤ 57 ∧
    hostDuty (50#7 : Index).toNat (entryOf (ex1 frameV1)) (ex1 frameV1) ∧
    (∀ l, 10 ≤ l → l < (50#7 : Index).toNat →
      (symbolsOf (ex1 frameV1) (entryOf (ex1 frameV1)) l == .one || symbolsOf (ex1 frameV1) (entryOf (ex1 frameV1)) l == .zero) = true) ∧
    ∃ p, attempt 50#7 (ex1 frameV1) = .next p ∧ (p.2 == .accept) = true :=
  ⟨by decide, by decide, duty_of_written rfl (by decide),
    symbols_of_all (p := fun x => x == .one || x == .zero) (by decide), next_of_holds (by decide)⟩

set_option maxRecDepth 8000 in
/-- `AttemptForgetsThePast`: states that differ in the packet, the transients, the working registers, entry 0 and entry 50. -/
theorem witness_AttemptForgetsThePast :
    { holdsV1 (frameFrom 0 ([9999] ++ preamble.tail ++ payloadV1 ++ [4000])) with i := 3#7, cnt := 2#4, ck := ⟨1, 2, 3⟩ }.portWrites = [] ∧
    (∀ k, k < 50 → 1 ≤ k → Memory.read (frameFrom 0 ([9999] ++ preamble.tail ++ payloadV1 ++ [4000])) k = Memory.read frameV1 k) ∧
    ∃ p, attempt 50#7 (ex1 frameV1) = .next p :=
  ⟨rfl, by decide, isNext_iff (by decide)⟩

/-- The entries 1 to `k - 1` of the V1 frame; entry `k` was never written. -/
def cutAt (k : Nat) : State := ex1 (frameFrom 1 ((preamble ++ payloadV1).tail.take (k - 1)))

set_option maxRecDepth 8000 in
/-- `UnwrittenEntryIsRefused`: the first entry, the last of the SYNC run, the HEAD, the first and the last of the payload. -/
theorem witness_UnwrittenEntryIsRefused : (Instr.decode 50).wellFormed = true ∧
    (1 ≤ 1 ∧ Memory.read (cutAt 1).tbuf 1 = none) ∧
    (8 < (50#16 : Operand).toNat % 128 ∧ Memory.read (cutAt 8).tbuf 8 = none ∧ seesRun (cutAt 8) 8 = true) ∧
    (Memory.read (cutAt 9).tbuf 9 = none ∧ seesRun (cutAt 9) 9 = true) ∧
    (Memory.read (cutAt 10).tbuf 10 = none ∧ seesRun (cutAt 10) 9 = true ∧ sees (cutAt 10) 9 .head = true) ∧
    (49 < (50#16 : Operand).toNat % 128 ∧ Memory.read (cutAt 49).tbuf 49 = none ∧ seesRun (cutAt 49) 9 = true ∧
      sees (cutAt 49) 9 .head = true ∧ ∀ l, l < 49 → 1 ≤ l → isNext (symbolAt (cutAt 49) l) = true) := by decide

/-- The V1 frame while the host writes the last entry that a DECODE of it reads. -/
def disturbed : State := { ex1 frameV1 with portWrites := [⟨49#6, 1#16⟩, ⟨49#6, 2#16⟩] }

set_option maxRecDepth 8000 in
/-- `ConcurrentWriteFreesOnlyWrittenEntries`: an entry written twice meanwhile and the one before it, a DECODE all of whose
entries were written before, and a command other than DECODE. -/
theorem witness_ConcurrentWriteFreesOnlyWrittenEntries :
    Memory.read disturbed.tbuf 49 = some 2000#16 ∧
    (∃ w, w ∈ disturbed.portWrites ∧ w.addr.toNat = 49) ∧
    Memory.read disturbed.tbuf 48 = some 4000#16 ∧
    (∀ w, w ∈ disturbed.portWrites → w.addr.toNat ≠ 48) ∧
    (Instr.decode 50).wellFormed = true ∧
    (∀ k, 1 ≤ k → k < (50#16 : Operand).toNat % 128 → ∃ d, Memory.read disturbed.tbuf k = some d) ∧
    ∀ x, Instr.chksum 0 ≠ .decode x :=
  ⟨by decide, ⟨⟨49#6, 1#16⟩, by decide, by decide⟩, by decide, by decide, by decide,
    fun k h1 hk => ⟨_, (duty_of_written (n := 50) (s := ex1 frameV1) rfl (by decide)).2 k h1 hk⟩, fun _ h => by cases h⟩

/-- An entry written meanwhile is not tied to its old value: the machine reads the free value (R151, R153). -/
theorem test_disturbed_entry_is_free : readEntry disturbed 49 = .next (Config.tornValue 0 49) := by rfl

end Sys2Proof.Tests
end

section
/-! PROOFS. The state between commands: reset, the invariant, and what a step does to the response channel, the thresholds,
the timing buffer and the accumulator. -/

namespace Sys2Proof.Machine

/-! ### The port's writes, entry by entry -/

/-- After several writes on the port an entry reads as before, or as one of the writes left it (R27). -/
theorem read_portWriteAll_cases (ws : List PortWrite) (m : Memory) (k : Nat) :
    Memory.read (portWriteAll m ws) k = Memory.read m k ∨
      ∃ w ∈ ws, w.addr.toNat = k ∧ Memory.read (portWriteAll m ws) k = some w.data := by
  induction ws generalizing m with
  | nil => exact .inl rfl
  | cons w ws ih =>
    rcases ih (portWrite m w) with hsame | ⟨v, hv, hk, hread⟩
    · by_cases hk : k = w.addr.toNat
      · subst hk
        exact .inr ⟨w, by simp, rfl, hsame.trans (read_write_same m _ _)⟩
      · exact .inl (hsame.trans (read_write_other m _ k _ hk))
    · exact .inr ⟨v, by simp [hv], hk, hread⟩

/-! ### The packet an attempt leaves -/

/-- What `State.Inv` says of the packet alone: the checksum accepts `BA` (R15), `PV` is below `2^54` (R85), and an empty `PV`
means an empty `BA`. -/
def PacketOk (ba : BitArray) (pv : PacketValue) : Prop :=
  (checksum ba).accept = true ∧ pv.toNat < 2 ^ 54 ∧ (pv = 0#64 → ba = 0#47)

theorem packetOk_zero : PacketOk 0#47 0#64 := ⟨by decide, by decide, fun _ => rfl⟩

/-- SYNCDET and HEADCHK fail under their own labels, or pass to a payload that starts at entry 10 (R75). -/
theorem outcome2_cases (n : Nat) (f : Nat → Symbol) :
    outcome2 n f = some .syncFail ∨ outcome2 n f = some .headFail ∨ (10 ≤ n ∧ outcome2 n f = none) := by
  unfold outcome2
  split
  · exact .inl rfl
  · split
    · exact .inr (.inl rfl)
    · next hhead =>
      simp only [Bool.or_eq_true, decide_eq_true_eq, not_or] at hhead
      exact .inr (.inr ⟨by omega, rfl⟩)

/-- The two ways an attempt ends (R127): an empty packet under a failure's label, or the accepted payload. -/
theorem decodeClosed_cases (n : Nat) (f : Nat → Symbol) :
    (∃ o, o ≠ .accept ∧ decodeClosed n f = (0#47, 0#64, o)) ∨
    (10 ≤ n ∧ (checksum (payloadBits n f)).accept = true ∧
      decodeClosed n f = (payloadBits n f, payloadValue n f, .accept)) := by
  unfold decodeClosed
  rcases outcome2_cases n f with h | h | ⟨h10, h⟩ <;> rw [h]
  · exact .inl ⟨.syncFail, by simp, rfl⟩
  · exact .inl ⟨.headFail, by simp, rfl⟩
  · by_cases hacc : (checksum (payloadBits n f)).accept = true
    · exact .inr ⟨h10, hacc, by simp [hacc]⟩
    · exact .inl ⟨.csumFail, by simp, by simp [hacc]⟩

/-- A payload of at most 54 pulses fits `PV` without loss (R85). -/
theorem toNat_payloadValue (f : Nat → Symbol) {n : Nat} (h10 : 10 ≤ n) (h64 : n ≤ 64) :
    (payloadValue n f).toNat = payloadNumber n f ∧ payloadNumber n f < 2 ^ 54 := by
  have hlt : payloadNumber n f < 2 ^ 54 :=
    (payloadNumber_lt f n h10).trans_le (Nat.pow_le_pow_right (by decide) (by omega))
  refine ⟨?_, hlt⟩
  rw [payloadValue, BitVec.toNat_ofNat, Nat.mod_eq_of_lt (hlt.trans (by decide))]

/-- Without a ONE among the payload pulses `BA` stays empty (R89). -/
theorem payloadBits_eq_zero {n : Nat} {f : Nat → Symbol} (h : ∀ k, 10 ≤ k → k < n → f k ≠ .one) :
    payloadBits n f = 0#47 := by
  apply BitVec.eq_of_getLsbD_eq
  intro k hk
  rw [getLsbD_payloadBits n f k hk]
  simpa [payloadOne] using h (10 + k) (by omega)

theorem packetOk_payload (f : Nat → Symbol) {n : Nat} (h10 : 10 ≤ n) (h64 : n ≤ 64)
    (hacc : (checksum (payloadBits n f)).accept = true) : PacketOk (payloadBits n f) (payloadValue n f) := by
  obtain ⟨hval, hlt⟩ := toNat_payloadValue f h10 h64
  refine ⟨hacc, hval ▸ hlt, fun hzero => payloadBits_eq_zero fun k hk hn hone => ?_⟩
  have hpos := payloadNumber_pos f n k hk hn hone
  rw [← hval, hzero] at hpos
  exact absurd hpos (by decide)

/-- Whatever symbols an attempt sees, it leaves a packet as the invariant asks. -/
theorem packetOk_decodeClosed (f : Nat → Symbol) {n : Nat} (h64 : n ≤ 64) :
    PacketOk (decodeClosed n f).1 (decodeClosed n f).2.1 := by
  rcases decodeClosed_cases n f with ⟨o, -, h⟩ | ⟨h10, hacc, h⟩ <;> rw [h]
  · exact packetOk_zero
  · exact packetOk_payload f h10 h64 hacc

/-! ### What a command leaves of the registers -/

/-- The sequencer at rest: phase IDLE and its counters zero (R20, R21). -/
def State.AtRest (s : State) : Prop := s.phase = .idle ∧ s.i = 0#7 ∧ s.cnt = 0#4 ∧ s.offset = 0#7

theorem inv_iff (s : State) :
    s.Inv ↔ s.busy = false ∧ s.portWrites = [] ∧ s.AtRest ∧ PacketOk s.ba s.pv ∧ Memory.wf s.tbuf = true := by
  unfold State.Inv State.idle State.AtRest PacketOk
  tauto

/-- What a command leaves of the packet and of the sequencer: both as they were, or, after a legal DECODE, the closed form over
the symbols it saw and the sequencer at rest (R127, R130, R137). -/
theorem exec_next_registers {i : Instr} {s t : State} (h : exec i s = .next t) :
    (t.ba = s.ba ∧ t.pv = s.pv ∧ t.phase = s.phase ∧ t.i = s.i ∧ t.cnt = s.cnt ∧ t.offset = s.offset) ∨
    ∃ x, i = .decode x ∧ decodeLegal x = true ∧ t.ba = (decodeClosed (lengthOf x).toNat (seen s)).1 ∧
      t.pv = (decodeClosed (lengthOf x).toNat (seen s)).2.1 ∧ t.AtRest := by
  by_cases hd : ∃ x, i = .decode x
  · obtain ⟨x, rfl⟩ := hd
    rcases exec_decode_cases x s with ⟨-, he⟩ | ⟨hl, u, -, hba, hpv, hu, he⟩ | ⟨-, k, -, -, he⟩ <;> rw [he] at h <;> cases h
    · exact .inl ⟨rfl, rfl, rfl, rfl, rfl, rfl⟩
    · exact .inr ⟨x, rfl, hl, hba, hpv, hu.phase, hu.i, hu.cnt, hu.offset⟩
  · obtain ⟨r, u, he, hu⟩ := exec_query i s fun x hx => hd ⟨x, hx⟩
    rw [he] at h
    cases h
    rcases hu with rfl | rfl <;> exact .inl ⟨rfl, rfl, rfl, rfl, rfl, rfl⟩

theorem exec_keeps_atRest {i : Instr} {s t : State} (hs : s.AtRest) (h : exec i s = .next t) : t.AtRest := by
  rcases exec_next_registers h with ⟨-, -, hphase, hi, hcnt, hoff⟩ | ⟨x, -, -, -, -, hrest⟩
  · simpa only [State.AtRest, hphase, hi, hcnt, hoff] using hs
  · exact hrest

theorem exec_keeps_packetOk {i : Instr} {s t : State} (hs : PacketOk s.ba s.pv) (h : exec i s = .next t) :
    PacketOk t.ba t.pv := by
  rcases exec_next_registers h with ⟨hba, hpv, -⟩ | ⟨x, -, hl, hba, hpv, -⟩ <;> rw [hba, hpv]
  · exact hs
  · exact packetOk_decodeClosed (seen s) (lengthOf_le x hl)

/-! ### A step that runs no command -/

/-- A step ran a command, or it only lets `rsp_valid` fall on the response channel and leaves the thresholds (R18, R26). -/
theorem step_next_quiet {s t : State} (h : step s = .next t) :
    (t.rsp = none ∧ t.received = s.received ∧ t.tOne = s.tOne ∧ t.tZero = s.tZero) ∨
    ∃ word during rest u, s.inputs = .command word during :: rest ∧ s.busy = false ∧
      exec (decodeWord word) (accept rest during s) = .next u ∧ t = settle u := by
  rcases step_next_cases h with rfl | ⟨w, rest, -, rfl⟩ | ⟨rest, -, rfl⟩ | ⟨word, during, rest, -, -, rfl⟩ | hrun
  · exact .inl ⟨rfl, rfl, rfl, rfl⟩
  · exact .inl ⟨rfl, rfl, rfl, rfl⟩
  · exact .inl ⟨rfl, rfl, rfl, rfl⟩
  · exact .inl ⟨rfl, rfl, rfl, rfl⟩
  · exact .inr hrun

/-! ### A clean payload in `PV`, bit by bit -/

/-- With ONE and ZERO entries only, digit `j` from the right is the entry `j` from the end (R89). -/
theorem testBit_payloadNumber_clean (f : Nat → Symbol) {n : Nat} (h10 : 10 ≤ n)
    (hclean : ∀ l, 10 ≤ l → l < n → f l = .one ∨ f l = .zero) (j : Nat) :
    (payloadNumber n f).testBit j = (decide (j < n - 10) && f (n - 1 - j) == .one) := by
  induction n, h10 using Nat.le_induction generalizing j with
  | base => simp [payloadNumber]
  | succ n h10 ih =>
    have hdigit : appendDigit f (payloadNumber n f) n = Nat.bit (f n == .one) (payloadNumber n f) := by
      rcases hclean n h10 (by omega) with h | h <;> simp only [appendDigit, h] <;> rfl
    rw [payloadNumber_succ n f h10, hdigit]
    cases j with
    | zero =>
      rw [Nat.testBit_bit_zero, show n + 1 - 1 - 0 = n by omega]
      simp; omega
    | succ j =>
      rw [Nat.testBit_bit_succ, ih (fun l h1 h2 => hclean l h1 (by omega)),
        show n + 1 - 1 - (j + 1) = n - 1 - j by omega]
      congr 1
      simp; omega

/-! ### The obligations -/

/-- Settles O3, by the step that was taken: waiting and a host write leave the core's registers, a reset empties them, and a
command keeps the sequencer at rest and the packet good. -/
theorem stepKeepsInvariant : Obligations.StepKeepsInvariant := by
  intro s t hs h
  rw [inv_iff] at hs ⊢
  obtain ⟨hbusy, hport, hrest, hpkt, hwf⟩ := hs
  rcases step_next_cases h with rfl | ⟨w, rest, -, rfl⟩ | ⟨rest, -, rfl⟩ | ⟨word, during, rest, -, -, rfl⟩ |
    ⟨word, during, rest, u, -, -, hexec, rfl⟩
  · exact ⟨hbusy, hport, hrest, hpkt, hwf⟩
  · exact ⟨hbusy, hport, hrest, hpkt, wf_portWrite _ w hwf⟩
  · exact ⟨rfl, rfl, ⟨rfl, rfl, rfl, rfl⟩, packetOk_zero, hwf⟩
  · exact ⟨rfl, rfl, ⟨rfl, rfl, rfl, rfl⟩, packetOk_zero, wf_portWriteAll during _ hwf⟩
  · obtain ⟨-, -, htbuf, -, -, hbusy', -⟩ := exec_next_frame hexec
    refine ⟨hbusy', rfl, exec_keeps_atRest (s := accept rest during s) (t := u) hrest hexec,
      exec_keeps_packetOk (s := accept rest during s) (t := u) hpkt hexec, wf_portWriteAll _ _ ?_⟩
    rw [htbuf]
    exact hwf

/-- Settles O10: a command that runs leaves one response more (`exec_next_frame`), every other step only lets `rsp_valid`
fall. -/
theorem everyCommandAnswersOnce : Obligations.EveryCommandAnswersOnce := by
  refine ⟨fun s t word during rest hi hb h => ?_, fun s t hno h => ?_⟩
  · rw [step_command hi hb] at h
    obtain ⟨u, hexec, hu⟩ := andThen_eq_next h
    cases hu
    obtain ⟨-, -, -, hin, -, hbusy, r, hrsp, hrec⟩ := exec_next_frame hexec
    exact ⟨r, hrsp, hrec, hbusy, by simp [State.cmdReady, hbusy], hin⟩
  · rcases step_next_quiet h with ⟨hrsp, hrec, -⟩ | ⟨word, during, rest, u, hi, hb, -, -⟩
    · exact ⟨hrsp, hrec⟩
    · rw [hno word during rest hi] at hb
      cases hb

/-- Settles O12: `exec` leaves the buffer as it was, and in a step it changes by `portWrite` alone. -/
theorem onlyHostWritesTimingBuffer : Obligations.OnlyHostWritesTimingBuffer := by
  refine ⟨fun i s t h k => ?_, fun s t k h hne => ?_⟩
  · obtain ⟨-, -, htbuf, -⟩ := exec_next_frame h
    rw [htbuf]
  · rcases step_next_cases h with rfl | ⟨w, rest, hi, rfl⟩ | ⟨rest, -, rfl⟩ | ⟨word, during, rest, hi, -, rfl⟩ |
      ⟨word, during, rest, u, hi, -, hexec, rfl⟩
    · exact absurd rfl hne
    · by_cases hk : k = w.addr.toNat
      · subst hk
        exact ⟨w, rfl, read_write_same _ _ _, .inl ⟨rest, hi⟩⟩
      · exact absurd (read_write_other _ _ k _ hk) hne
    · exact absurd rfl hne
    · rcases read_portWriteAll_cases during s.tbuf k with hsame | ⟨w, hw, hk, hread⟩
      · exact absurd hsame hne
      · exact ⟨w, hk, hread, .inr ⟨word, during, rest, .inr hi, hw⟩⟩
    · obtain ⟨-, -, htbuf, -, hport, -⟩ := exec_next_frame hexec
      have hland : (settle u).tbuf = portWriteAll s.tbuf during := by simp [htbuf, hport]
      rw [hland] at hne ⊢
      rcases read_portWriteAll_cases during s.tbuf k with hsame | ⟨w, hw, hk, hread⟩
      · exact absurd hsame hne
      · exact ⟨w, hk, hread, .inr ⟨word, during, rest, .inl hi, hw⟩⟩

/-- Settles O53, through the closed form of an accepted attempt and the digits of a clean payload. -/
theorem cleanPayloadMirroredInAccumulator : Obligations.CleanPayloadMirroredInAccumulator := by
  intro n s t d h10 h57 ⟨hport, hread⟩ hclean h
  have hseen : ∀ l, 10 ≤ l → l < n.toNat → seen s l = .one ∨ seen s l = .zero := fun l h1 h2 => by
    rw [seen_eq (symbolAt_quiet s l (d l) hport (hread l (by omega) h2))]
    exact hclean l h1 h2
  have hbit := testBit_payloadNumber_clean (seen s) h10 hseen
  rcases attempt_cases s n (by omega) with ⟨u, hatt, hba, hpv, -⟩ | ⟨k, -, -, hatt⟩
  · rw [h] at hatt
    rcases decodeClosed_cases n.toNat (seen s) with ⟨o, ho, hcl⟩ | ⟨-, -, hcl⟩
    · rw [hcl] at hatt; cases hatt; exact absurd rfl ho
    · rw [hcl] at hatt hba hpv
      cases hatt
      rw [hba, hpv]
      simp only [payloadValue, BitVec.getLsbD_ofNat, hbit]
      refine ⟨fun k hk => ?_, fun k hk => by simp; omega⟩
      rw [getLsbD_payloadBits _ _ k (by omega), payloadOne, show n.toNat - 1 - (n.toNat - 10 - 1 - k) = 10 + k by omega]
      simp [show n.toNat - 10 - 1 - k < 64 by omega, show n.toNat - 10 - 1 - k < n.toNat - 10 by omega,
        show 10 + k < n.toNat by omega]
  · rw [h] at hatt; cases hatt

/-- Settles O1: each value is the one `State.reset` writes out. -/
theorem resetStateHoldsResetValues : Obligations.ResetStateHoldsResetValues :=
  ⟨rfl, rfl, rfl, rfl, rfl, rfl, rfl, rfl, rfl⟩

/-- Settles O2: the core is at rest, the packet and the buffer are empty. -/
theorem resetStateSatisfiesInvariant : Obligations.ResetStateSatisfiesInvariant :=
  (inv_iff _).2 ⟨rfl, rfl, ⟨rfl, rfl, rfl, rfl⟩, packetOk_zero, wf_reset⟩

/-- Settles O6: `step_command`, with acceptance and landing written out. -/
theorem stepRunsDecodedCommand : Obligations.StepRunsDecodedCommand := by
  intro s word during rest hi hb
  have hacc : { s with inputs := rest, portWrites := during, busy := true, rsp := none } = accept rest during s := rfl
  rw [step_command hi hb, hacc]
  cases exec (decodeWord word) (accept rest during s) <;> rfl

/-- Settles O7, by the laws of the idle, the blocked and the writing step. -/
theorem stepWithoutCommand : Obligations.StepWithoutCommand :=
  ⟨fun _ hi => step_idle hi, fun _ _ _ _ hi hb => step_blocked hi hb, fun s w _ hi =>
    ⟨portWrite s.tbuf w, step_write hi, read_write_same _ _ _, fun k hk => read_write_other _ _ k _ hk⟩⟩

/-- Settles O8: the step is `applyReset`, and `cmd_ready` is gated by `rst`. -/
theorem rstPutsCoreInResetState : Obligations.RstPutsCoreInResetState :=
  ⟨fun s rest hi => ⟨applyReset rest s, step_reset hi, rfl, rfl, rfl, rfl, rfl, rfl, rfl, rfl, rfl, rfl, rfl, rfl, rfl,
    fun _ => rfl⟩, fun _ => rfl⟩

/-- Settles O11: no command writes the thresholds (`exec_next_frame`), and no other step does. -/
theorem thresholdsNeverChange : Obligations.ThresholdsNeverChange := by
  intro s t h
  rcases step_next_quiet h with ⟨-, -, hone, hzero⟩ | ⟨word, during, rest, u, -, -, hexec, rfl⟩
  · exact ⟨hone, hzero⟩
  · obtain ⟨hone, hzero, -⟩ := exec_next_frame hexec
    exact ⟨hone, hzero⟩

end Sys2Proof.Machine
end

section
/-! PROOFS. The timing buffer under DECODE: an entry never written stops it and nothing else refuses, an entry the host writes
meanwhile reads as a free value, and what DECODE leaves as it was. -/

namespace Sys2Proof.Machine

/-! ### Reading an entry -/

/-- A written entry that the host also writes meanwhile reads as the free value (R151, R153). -/
theorem readEntry_torn {s : State} {k : Nat} {old : Duration} (hw : writtenMeanwhile s.portWrites k = true)
    (hr : Memory.read s.tbuf k = some old) : readEntry s k = .next (Config.tornValue s.draws k) := by
  simp [readEntry, hr, hw]

/-- An entry never written shows its user no symbol (R32). -/
theorem symbolAt_unwritten {s : State} {k : Nat} (hr : Memory.read s.tbuf k = none) :
    symbolAt s k = .refused (.unwrittenEntry k) := by
  rw [symbolAt_eq, readEntry, hr]
  rfl

/-! ### What a refusal says -/

/-- A command is refused only when it is a legal DECODE whose scan comes to an entry never written (R32). -/
theorem exec_refused {i : Instr} {s : State} {r : Refusal} (h : exec i s = .refused r) :
    ∃ x k, i = .decode x ∧ decodeLegal x = true ∧ r = .unwrittenEntry k ∧ Reaches (lengthOf x) s k ∧
      Memory.read s.tbuf k = none := by
  by_cases hd : ∃ x, i = .decode x
  · obtain ⟨x, rfl⟩ := hd
    rcases exec_decode_cases x s with ⟨-, he⟩ | ⟨-, u, -, -, -, -, he⟩ | ⟨hl, k, hk, hr, he⟩ <;> rw [he] at h <;> cases h
    exact ⟨x, k, rfl, hl, rfl, hk, hr⟩
  · obtain ⟨r', u, he, -⟩ := exec_query i s fun x hx => hd ⟨x, hx⟩
    rw [he] at h
    cases h

/-- A step is refused only by the command it runs. -/
theorem step_refused {s : State} {r : Refusal} (h : step s = .refused r) :
    ∃ word during rest, s.inputs = .command word during :: rest ∧
      exec (decodeWord word) (accept rest during s) = .refused r := by
  cases hi : s.inputs with
  | nil => rw [step_idle hi] at h; cases h
  | cons a rest =>
    cases a with
    | write w => rw [step_write hi] at h; cases h
    | reset => rw [step_reset hi] at h; cases h
    | abandoned word during =>
      cases hb : s.busy with
      | true => rw [step_blocked (.inr hi) hb] at h; cases h
      | false => rw [step_abandoned hi hb] at h; cases h
    | command word during =>
      cases hb : s.busy with
      | true => rw [step_blocked (.inl hi) hb] at h; cases h
      | false =>
        rw [step_command hi hb] at h
        rcases andThen_eq_refused h with hexec | ⟨u, -, hu⟩
        · exact ⟨word, during, rest, rfl, hexec⟩
        · cases hu

/-! ### Commands that do not read the buffer -/

/-- A command other than DECODE does not look at the writes on the port: other writes there change only the record of them. -/
theorem exec_query_portWrites {i : Instr} {s t : State} (ws : List PortWrite) (hd : ∀ x, i ≠ .decode x)
    (h : exec i s = .next t) : exec i { s with portWrites := ws } = .next { t with portWrites := ws } := by
  cases i with
  | decode x => exact absurd rfl (hd x)
  | _ => cases h; rfl

/-! ### The obligations -/

/-- Settles O5: the step ran a command (`step_refused`), a refused command is a DECODE at an entry never written
(`exec_refused`), and a legal length bound is at most 64. -/
theorem stepRefusesOnlyUnwrittenEntry : Obligations.StepRefusesOnlyUnwrittenEntry := by
  intro s r h
  obtain ⟨word, during, rest, hi, hexec⟩ := step_refused h
  obtain ⟨x, k, hx, hl, hr, hk, hread⟩ := exec_refused hexec
  have hlt := hk.lt
  have h64 := lengthOf_le x hl
  exact ⟨k, word, during, rest, hr, hk.pos, by omega, hread, hi, x, hx, toNat_lengthOf x ▸ hlt⟩

/-- Settles O49: the frame is that of every command (`exec_next_frame`), and both answers of DECODE carry data 0. -/
theorem decodeFrame : Obligations.DecodeFrame := by
  intro x s t h
  obtain ⟨hone, hzero, htbuf, hin, hport, -⟩ := exec_next_frame h
  refine ⟨?_, hone, hzero, hin, hport, fun k => by rw [htbuf]⟩
  rcases exec_decode_cases x s with ⟨-, he⟩ | ⟨-, u, -, -, -, hu, he⟩ | ⟨-, k, -, -, he⟩ <;> rw [he] at h <;> cases h
  · exact ⟨true, rfl, rfl, rfl⟩
  · exact ⟨false, rfl, rfl, congrArg (· ++ _) hu.received⟩

/-- Settles O55: the hypotheses say that the scan comes to entry `k`, where `attempt_refused` stops it. -/
theorem unwrittenEntryIsRefused : Obligations.UnwrittenEntryIsRefused := by
  intro x s k hwf hpos hlt hread hseen hrun hhead
  rw [← decodeLegal_iff] at hwf
  have hreach : Reaches (lengthOf x) s k :=
    { pos := hpos
      lt := by rwa [toNat_lengthOf]
      unwritten := symbolAt_unwritten hread
      run := hrun
      head := hhead
      payload := fun l h10 hl => by
        obtain ⟨y, hy⟩ := hseen l (by omega) hl
        rw [hy, seen_eq hy] }
  simp [exec, execDecode, hwf, attempt_refused s (lengthOf x) k (lengthOf_le x hwf) hreach]

/-- Settles O56. The symbols of the closed form are the ones the attempt sees (`seen`): the buffer's wherever the host does not
write; with every entry written before, the scan has nowhere to stop. -/
theorem concurrentWriteFreesOnlyWrittenEntries : Obligations.ConcurrentWriteFreesOnlyWrittenEntries := by
  refine ⟨fun s k old hr => ⟨fun hno => ?_, fun ⟨w, hw, hk⟩ => ?_⟩, fun x s hwf hwritten => ?_, fun i s during hd => ?_⟩
  · exact readEntry_untouched s k old (writtenMeanwhile_eq_false hno) hr
  · exact readEntry_torn (writtenMeanwhile_eq_true hw hk) hr
  · rw [← decodeLegal_iff] at hwf
    rw [← toNat_lengthOf] at hwritten ⊢
    rcases exec_decode_cases x s with ⟨hl, -⟩ | ⟨-, u, -, hba, hpv, hu, he⟩ | ⟨-, k, hk, hread, -⟩
    · rw [hwf] at hl; cases hl
    · exact ⟨respond 0#64 u, seen s, he, ⟨rfl, rfl, congrArg (· ++ _) hu.received⟩,
        fun k d _ _ hr hno => seen_eq (symbolAt_untouched s k d (writtenMeanwhile_eq_false hno) hr),
        hba, hpv, hu.i, hu.cnt, hu.offset, hu.phase, hu.tOne, hu.tZero, hu.inputs, hu.portWrites,
        fun k => congrArg (Memory.read · k) hu.tbuf⟩
    · obtain ⟨d, hd⟩ := hwritten k hk.pos hk.lt
      rw [hread] at hd; cases hd
  · obtain ⟨r, u, he, -⟩ := exec_query i { s with portWrites := [] } hd
    exact ⟨_, _, he, exec_query_portWrites (s := { s with portWrites := [] }) during hd he, rfl⟩

end Sys2Proof.Machine
end

section
/-! PROOFS. The command word: decoding and encoding are inverse, the opcode map read as patterns and masks is the decoder, and
which words are illegal. -/

namespace Sys2Proof

open Sys2Proof.Laws

/-! ### The fields of a word and of a command -/

/-- A word is its opcode before its operand: no bit lies outside the two fields (R52). -/
theorem opcodeOf_append_operandOf (w : CmdWord) : opcodeOf w ++ operandOf w = w := by
  rw [opcodeOf, operandOf, BitVec.extractLsb'_append_extractLsb'_eq_extractLsb' (Nat.zero_add 16).symm]
  exact BitVec.extractLsb'_eq_self

theorem toNat_opcodeOf (w : CmdWord) : (opcodeOf w).toNat = w.toNat / 2 ^ 16 := by
  have := w.isLt
  rw [opcodeOf, BitVec.extractLsb'_toNat, Nat.shiftRight_eq_div_pow]
  omega

theorem toNat_operandOf (w : CmdWord) : (operandOf w).toNat = w.toNat % 2 ^ 16 := by
  rw [operandOf, BitVec.extractLsb'_toNat, Nat.shiftRight_zero]

@[simp] theorem operand_ofFields (op : Opcode) (x : Operand) : (ofFields op x).operand = x := by
  unfold ofFields
  split <;> rfl

/-- The decoder looks at the opcode field only to choose the command (R58). -/
theorem ofFields_choice (op : Opcode) (x y : Operand) :
    (ofFields op x).opcode = (ofFields op y).opcode ∧ (ofFields op x).mnemonic = (ofFields op y).mnemonic := by
  unfold ofFields
  split <;> exact ⟨rfl, rfl⟩

/-- The command chosen by an opcode has that opcode: one command for each of the sixteen (R54, R55). -/
@[simp] theorem opcode_ofFields (op : Opcode) (x : Operand) : (ofFields op x).opcode = op := by
  have hzero : ∀ op : Opcode, (ofFields op 0#16).opcode = op := by decide
  rw [(ofFields_choice op x 0#16).1, hzero]

theorem opcode_decodeWord (w : CmdWord) : (decodeWord w).opcode = opcodeOf w := opcode_ofFields _ _

theorem operand_decodeWord (w : CmdWord) : (decodeWord w).operand = operandOf w := operand_ofFields _ _

theorem decodeWord_encode (i : Instr) : decodeWord (encode i) = i := by
  rw [decodeWord, encode, opcodeOf_append, operandOf_append, ofFields_self]

theorem encode_decodeWord (w : CmdWord) : encode (decodeWord w) = w := by
  rw [encode, opcode_decodeWord, operand_decodeWord, opcodeOf_append_operandOf]

/-- Settles O13: the opcode and the operand field are the whole word, and the decoder makes of them the one command that has
both. -/
theorem decodeAndEncodeAreInverse : Obligations.DecodeAndEncodeAreInverse :=
  ⟨decodeWord_encode, encode_decodeWord⟩

/-! ### The opcode map -/

/-- The row of R54 and R55 for an opcode: the decoder's command, the opcode in bits 19:16, and the mask of those bits. -/
def rowOf (op : Opcode) : OpcodeRow := ⟨(ofFields op 0#16).mnemonic, op ++ 0#16, 0xF0000#20⟩

theorem opcodeTable_eq : opcodeTable = (List.finRange 16).map fun k => rowOf (BitVec.ofFin k) := by decide

theorem mem_opcodeTable {r : OpcodeRow} : r ∈ opcodeTable ↔ ∃ op, r = rowOf op := by
  rw [opcodeTable_eq]
  constructor
  · intro h
    obtain ⟨k, -, rfl⟩ := List.mem_map.1 h
    exact ⟨_, rfl⟩
  · rintro ⟨op, rfl⟩
    exact List.mem_map.2 ⟨op.toFin, List.mem_finRange _, rfl⟩

theorem mask_opcode_bits (w : CmdWord) : w &&& 0xF0000#20 = opcodeOf w ++ 0#16 := by
  have hmask : (0xF0000#20 : CmdWord) = BitVec.allOnes 4 ++ 0#16 := rfl
  calc w &&& 0xF0000#20
      = (opcodeOf w ++ operandOf w) &&& (BitVec.allOnes 4 ++ 0#16) := by rw [opcodeOf_append_operandOf, hmask]
    _ = opcodeOf w ++ 0#16 := by rw [BitVec.and_append, BitVec.and_allOnes, BitVec.and_zero]

/-- A word selects the row of its own opcode and no other (R54). -/
theorem rowOf_selects_iff (op : Opcode) (w : CmdWord) : (rowOf op).selects w = true ↔ opcodeOf w = op := by
  simp only [OpcodeRow.selects, rowOf, beq_iff_eq, mask_opcode_bits]
  constructor
  · intro h
    rw [← opcodeOf_append (opcodeOf w) 0#16, h, opcodeOf_append]
  · rintro rfl
    rfl

/-- No mnemonic stands for two opcodes, whatever the operand. -/
theorem mnemonic_ofFields_inj {op op' : Opcode} (x y : Operand) :
    (ofFields op x).mnemonic = (ofFields op' y).mnemonic ↔ op = op' := by
  have hzero : ∀ op op' : Opcode, (ofFields op 0#16).mnemonic = (ofFields op' 0#16).mnemonic → op = op' := by decide
  rw [(ofFields_choice op x 0#16).2, (ofFields_choice op' y 0#16).2]
  exact ⟨hzero op op', fun h => h ▸ rfl⟩

/-- Settles O14: the rows are `rowOf` of the sixteen opcodes, a word selects `rowOf op` exactly when its opcode is `op`, and so
does the mnemonic it decodes to. -/
theorem opcodeMapSelectsOneRow : Obligations.OpcodeMapSelectsOneRow := by
  refine ⟨fun w r hr => ?_, fun w => ?_⟩
  · obtain ⟨op, rfl⟩ := mem_opcodeTable.1 hr
    exact (rowOf_selects_iff op w).trans (mnemonic_ofFields_inj (operandOf w) 0#16).symm
  · refine ⟨rowOf (opcodeOf w), mem_opcodeTable.2 ⟨_, rfl⟩, (rowOf_selects_iff _ w).2 rfl, fun q hq hsel => ?_⟩
    obtain ⟨op, rfl⟩ := mem_opcodeTable.1 hq
    rw [(rowOf_selects_iff op w).1 hsel]

/-- Settles O15: each word is the spec's opcode digit before the operand. -/
theorem decoderReadsSpecWords : Obligations.DecoderReadsSpecWords :=
  ⟨decodeWord_encode (.nop 0#16), decodeWord_encode (.decode 50#16), decodeWord_encode (.getId 0xABCD#16),
    decodeWord_encode (.getStatus 0#16), decodeWord_encode (.classify 7900#16), decodeWord_encode (.chksum 0#16),
    decodeWord_encode (.reservedD 0x1234#16)⟩

/-! ### Illegal words -/

/-- The three checks of R55 on the two fields of a command. -/
theorem wellFormed_eq_false_iff (i : Instr) :
    i.wellFormed = false ↔
      12 ≤ i.opcode.toNat ∨ (i.opcode.toNat = 1 ∧ (i.operand.toNat / 2 ^ 7 ≠ 0 ∨ 64 < i.operand.toNat % 2 ^ 7)) := by
  cases i with
  | decode x =>
    have hop : (Instr.decode x).opcode.toNat = 1 := rfl
    simp only [hop, Instr.operand, Instr.wellFormed, decodeHighBitsZero, decodeLengthInRange, Bool.and_eq_false_iff,
      beq_eq_false_iff_ne, decide_eq_false_iff_not, true_and]
    omega
  | _ => simp [Instr.wellFormed, Instr.opcode]

theorem decodeWord_illegal_iff (w : CmdWord) :
    (decodeWord w).wellFormed = false ↔
      12 ≤ w.toNat / 2 ^ 16 ∨ (w.toNat / 2 ^ 16 = 1 ∧ (w.toNat % 2 ^ 16 / 2 ^ 7 ≠ 0 ∨ 64 < w.toNat % 2 ^ 7)) := by
  rw [wellFormed_eq_false_iff, opcode_decodeWord, operand_decodeWord, toNat_opcodeOf, toNat_operandOf,
    Nat.mod_mod_of_dvd w.toNat (by decide : 2 ^ 7 ∣ 2 ^ 16)]

end Sys2Proof
end

section
/-! PROOFS. The commands: none faults, the illegal ones change nothing, what the queries answer and the cells each
of them reads, and that DECODE completes. -/

namespace Sys2Proof.Machine

/-! ### No command faults -/

theorem exec_no_fault (i : Instr) (s : State) (r : Fault) : exec i s ≠ .fault r := by
  by_cases hd : ∃ x, i = .decode x
  · obtain ⟨x, rfl⟩ := hd
    rcases exec_decode_cases x s with ⟨-, he⟩ | ⟨-, u, -, -, -, -, he⟩ | ⟨-, k, -, -, he⟩ <;> simp [he]
  · obtain ⟨a, u, he, -⟩ := exec_query i s fun x hx => hd ⟨x, hx⟩
    simp [he]

/-- A step always has a next state, except for what the command it runs may do. -/
theorem step_next_or_command (s : State) :
    (∃ t, step s = .next t) ∨
    ∃ word during rest, step s = andThen (exec (decodeWord word) (accept rest during s)) fun t => .next (settle t) := by
  cases hi : s.inputs with
  | nil => exact .inl ⟨_, step_idle hi⟩
  | cons a rest =>
    cases a with
    | write w => exact .inl ⟨_, step_write hi⟩
    | reset => exact .inl ⟨_, step_reset hi⟩
    | abandoned word during =>
      cases hb : s.busy with
      | true => exact .inl ⟨_, step_blocked (.inr hi) hb⟩
      | false => exact .inl ⟨_, step_abandoned hi hb⟩
    | command word during =>
      cases hb : s.busy with
      | true => exact .inl ⟨_, step_blocked (.inl hi) hb⟩
      | false => exact .inr ⟨word, during, rest, step_command hi hb⟩

/-- Settles O4: only the command run could fault, and no command does (`symbolAt_no_fault` inside a DECODE). -/
theorem stepNeverFaults : Obligations.StepNeverFaults := by
  intro s r h
  rcases step_next_or_command s with ⟨t, ht⟩ | ⟨word, during, rest, hc⟩
  · rw [ht] at h; cases h
  · rw [hc] at h
    rcases andThen_eq_fault h with hexec | ⟨u, -, hu⟩
    · exact exec_no_fault _ _ r hexec
    · cases hu

/-! ### Illegal and legal commands -/

theorem exec_illegal {i : Instr} (s : State) (h : i.wellFormed = false) : exec i s = .next (respondIllegal s) := by
  cases i with
  | decode x =>
    rw [← decodeLegal_iff] at h
    simp [exec, execDecode, h]
  | reservedC x => rfl
  | reservedD x => rfl
  | reservedE x => rfl
  | reservedF x => rfl
  | _ => cases h

/-- Where a legal command answers, it answers legally. -/
theorem exec_legal_rsp {i : Instr} {s t : State} (hwf : i.wellFormed = true) (h : exec i s = .next t) :
    ∃ v, t.rsp = some ⟨v, false⟩ := by
  cases i with
  | decode x =>
    rw [← decodeLegal_iff] at hwf
    rcases exec_decode_cases x s with ⟨hl, -⟩ | ⟨-, u, -, -, -, -, he⟩ | ⟨-, k, -, -, he⟩
    · rw [hwf] at hl; cases hl
    · rw [he] at h; cases h; exact ⟨0#64, rfl⟩
    · rw [he] at h; cases h
  | reservedC x => cases hwf
  | reservedD x => cases hwf
  | reservedE x => cases hwf
  | reservedF x => cases hwf
  | _ => cases h; exact ⟨_, rfl⟩

theorem sameCore_refl (s : State) : sameCore s s :=
  ⟨rfl, rfl, rfl, rfl, rfl, rfl, rfl, rfl, rfl, rfl, fun _ => rfl⟩

/-- A response stands on its own channel. -/
theorem sameCore_answer {s t : State} (r : Response) (h : sameCore s t) : sameCore s (answer r t) := h

theorem answersIllegal_of_illFormed {i : Instr} (s : State) (h : i.wellFormed = false) : answersIllegal i s :=
  ⟨respondIllegal s, exec_illegal s h, ⟨rfl, rfl, rfl⟩, sameCore_answer _ (sameCore_refl s), rfl, rfl⟩

/-- Settles O16: `decodeWord_illegal_iff` names the words, `exec_illegal` and `exec_legal_rsp` say what their commands do. -/
theorem illegalCommandsChangeNothing : Obligations.IllegalCommandsChangeNothing := by
  refine ⟨decodeWord_illegal_iff, fun i s h => answersIllegal_of_illFormed s h, fun i s t hwf h => exec_legal_rsp hwf h,
    fun i s t hwf h => ?_⟩
  rw [exec_illegal s hwf] at h
  cases h
  rfl

/-- Settles O29: the four reserved commands are ill-formed. -/
theorem reservedOpcodesAnswerIllegal : Obligations.ReservedOpcodesAnswerIllegal := fun _ s =>
  ⟨answersIllegal_of_illFormed s rfl, answersIllegal_of_illFormed s rfl, answersIllegal_of_illFormed s rfl,
    answersIllegal_of_illFormed s rfl⟩

/-! ### What the queries answer with -/

section
variable (x : Operand) (s : State)

theorem answerOf_getId : answerOf (.getId x) s = some (BitVec.ofNat 64 (rev s.ba 0 7)) := rfl

theorem answerOf_getBattery : answerOf (.getBattery x) s = some (BitVec.ofNat 64 (1 - cellNat s.ba 13)) := rfl

theorem answerOf_getChannel : answerOf (.getChannel x) s = some (BitVec.ofNat 64 (rev s.ba 38 39)) := rfl

theorem answerOf_getTemperature :
    answerOf (.getTemperature x) s = some ((BitVec.ofInt 16 (temperatureNum s.ba)).signExtend 64) := rfl

theorem answerOf_getHumidity : answerOf (.getHumidity x) s = some (BitVec.ofNat 64 (humidity s.ba)) := rfl

theorem answerOf_getStatus : answerOf (.getStatus x) s = some ((statusOf s.ba).code.zeroExtend 64) := rfl

theorem answerOf_getBits : answerOf (.getBits x) s = some (s.ba.zeroExtend 64) := rfl

theorem answerOf_chksum : answerOf (.chksum x) s = some (ckWord (checksum s.ba)) := rfl

end

/-! ### GET_STATUS -/

/-- R116, in one range after the other. -/
theorem humidityInvalid_iff (hum : Nat) : humidityInvalid hum = true ↔ (1 ≤ hum ∧ hum ≤ 9) ∨ 101 ≤ hum := by
  simp only [humidityInvalid, Bool.and_eq_true, Bool.or_eq_true, decide_eq_true_eq, bne_iff_ne]
  omega

/-- R117 on the raw value: -40.0 degrees is 500, 90.0 degrees is 2840. -/
theorem temperatureInvalid_iff (ba : BitArray) :
    temperatureInvalid (temperatureNum ba) = true ↔ rev ba 16 27 < 500 ∨ 2840 < rev ba 16 27 := by
  simp only [temperatureInvalid, Bool.or_eq_true, decide_eq_true_eq]
  simp only [temperatureNum, Config.tempZero]
  omega

/-- Two nibbles of 15 give the highest humidity (R110). -/
theorem humidity_le (ba : BitArray) : humidity ba ≤ 165 := by
  have htens := rev_lt ba 28 31
  have hunits := rev_lt ba 32 35
  unfold humidity
  omega

/-- Settles O24, by the three branches of the priority encoder (R115). -/
theorem statusRangesOfRawValues : Obligations.StatusRangesOfRawValues := by
  intro x s
  refine ⟨_, answerOf_getStatus x s, ?_⟩
  have hle := humidity_le s.ba
  have hhum := humidityInvalid_iff (humidity s.ba)
  have htemp := temperatureInvalid_iff s.ba
  unfold statusOf sanity
  split
  · next h =>
    rw [hhum] at h
    exact ⟨by decide, iff_of_false (by decide) (by omega), iff_of_true rfl (by omega)⟩
  · next h =>
    rw [hhum] at h
    split
    · next h' =>
      rw [htemp] at h'
      exact ⟨by decide, iff_of_false (by decide) (by omega), iff_of_false (by decide) (by omega)⟩
    · next h' =>
      rw [htemp] at h'
      exact ⟨by decide, iff_of_true rfl (by omega), iff_of_false (by decide) (by omega)⟩

/-! ### CHKSUM -/

theorem toNat_append_eq {v w : Nat} (x : BitVec v) (y : BitVec w) : (x ++ y).toNat = x.toNat * 2 ^ w + y.toNat := by
  rw [BitVec.toNat_append, ← Nat.shiftLeft_add_eq_or_of_lt y.isLt, Nat.shiftLeft_eq]

/-- The packed answer as a number (R56). -/
theorem ckWord_eq (c : CkResult) :
    ckWord c = BitVec.ofNat 64 (c.accept.toNat + 16 * c.acc.toNat + 256 * c.tx.toNat) := by
  apply BitVec.eq_of_toNat_eq
  have hbool := Bool.toNat_le c.accept
  simp only [ckWord, BitVec.toNat_setWidth, toNat_append_eq, BitVec.toNat_ofNat, BitVec.toNat_ofBool]
  congr 1
  omega

/-- An evaluation of the checksum uses the working registers only (R92). -/
theorem sameCore_evaluate (s : State) : sameCore s (forgetWorking (evaluate s)) := sameCore_refl s

/-- The transmitted checksum is the whole of `rev(8, 11)`: it fits its nibble (R91). -/
theorem toNat_transmitted (ba : BitArray) : (transmitted ba).toNat = rev ba 8 11 := by
  rw [transmitted, BitVec.toNat_ofNat, Nat.mod_eq_of_lt (rev_lt ba 8 11)]

/-- Settles O28: the answer is `ckWord_eq`, given on a state that differs in the working registers only. -/
theorem chksumRespondsPackedResult : Obligations.ChksumRespondsPackedResult := by
  refine ⟨fun x s => ⟨_, rfl, sameCore_answer _ (sameCore_evaluate s), ?_⟩, fun x => decodeWord_encode (.chksum x),
    fun ba => ⟨toNat_transmitted ba, ?_⟩⟩
  · rw [← ckWord_eq]
    exact ⟨rfl, rfl, rfl⟩
  · rw [checksum_accept, beq_iff_eq]

/-! ### The cells each query reads -/

theorem rev_congr {a b : BitArray} {lo hi : Nat} (hle : lo ≤ hi)
    (h : ∀ k, lo ≤ k → k ≤ hi → a.getLsbD k = b.getLsbD k) : rev a lo hi = rev b lo hi :=
  revSum_congr a b lo _ fun k hk => h (lo + k) (by omega) (by omega)

theorem temperatureNum_congr {a b : BitArray} (h : ∀ k, 16 ≤ k → k ≤ 27 → a.getLsbD k = b.getLsbD k) :
    temperatureNum a = temperatureNum b := by
  rw [temperatureNum, temperatureNum, rev_congr (by decide) h]

theorem humidity_congr {a b : BitArray} (h : ∀ k, 28 ≤ k → k ≤ 35 → a.getLsbD k = b.getLsbD k) :
    humidity a = humidity b := by
  rw [humidity, humidity, rev_congr (lo := 28) (hi := 31) (by decide) fun k h1 h2 => h k h1 (by omega),
    rev_congr (lo := 32) (hi := 35) (by decide) fun k h1 h2 => h k (by omega) h2]

theorem statusOf_congr {a b : BitArray} (h : ∀ k, 16 ≤ k → k ≤ 35 → a.getLsbD k = b.getLsbD k) :
    statusOf a = statusOf b := by
  rw [statusOf, statusOf, humidity_congr fun k h1 h2 => h k (by omega) h2,
    temperatureNum_congr fun k h1 h2 => h k h1 (by omega)]

theorem extractLsb'_congr {a b : BitArray} {lo len : Nat}
    (h : ∀ k, lo ≤ k → k < lo + len → a.getLsbD k = b.getLsbD k) : a.extractLsb' lo len = b.extractLsb' lo len := by
  apply BitVec.eq_of_getLsbD_eq
  intro k hk
  simp [BitVec.getLsbD_extractLsb', h (lo + k) (by omega) (by omega)]

/-- The checksum covers cells 0 to 39 (R91, R93). -/
theorem checksum_congr {a b : BitArray} (h : ∀ k, k ≤ 39 → a.getLsbD k = b.getLsbD k) : checksum a = checksum b := by
  have hreorder : reorder a = reorder b := by
    rw [reorder, reorder, extractLsb'_congr (lo := 12) (len := 24) fun k _ hk => h k (by omega),
      extractLsb'_congr (lo := 36) (len := 4) fun k _ hk => h k (by omega),
      extractLsb'_congr (lo := 0) (len := 8) fun k _ hk => h k (by omega)]
  have htx : transmitted a = transmitted b := by
    rw [transmitted, transmitted, rev_congr (by decide) fun k _ hk => h k (by omega)]
  rw [checksum, checksum, ckFinal, ckFinal, hreorder, htx]

/-- Settles O32: each answer is a function of the value its query reads from `BA`, and that value of the cells listed. -/
theorem queriesReadOnlyTheirCells : Obligations.QueriesReadOnlyTheirCells := by
  intro x s t
  refine ⟨fun h => ?_, fun h => ?_, fun h => ?_, fun h => ?_, fun h => ?_, fun h => ?_, fun h => ?_, fun h => ?_⟩
  · rw [answerOf_getId, answerOf_getId, rev_congr (by decide) fun k _ hk => h k hk]
  · rw [answerOf_getBattery, answerOf_getBattery, cellNat, cellNat, h]
  · rw [answerOf_getChannel, answerOf_getChannel, rev_congr (by decide) h]
  · rw [answerOf_getTemperature, answerOf_getTemperature, temperatureNum_congr h]
  · rw [answerOf_getHumidity, answerOf_getHumidity, humidity_congr h]
  · rw [answerOf_getStatus, answerOf_getStatus, statusOf_congr h]
  · rw [answerOf_chksum, answerOf_chksum, checksum_congr h]
    exact ⟨rfl, rfl⟩
  · rw [answerOf_getBits, answerOf_getBits, BitVec.eq_of_getLsbD_eq fun k hk => h k (Nat.le_of_lt_succ hk)]

/-! ### DECODE completes -/

/-- With the host's duties met the attempt sees the symbols of the entries (R152, R153). -/
theorem seen_of_hostDuty {n : Nat} {d : Nat → Duration} {s : State} (h : hostDuty n d s) :
    ∀ k, 1 ≤ k → k < n → seen s k = symbolsOf s d k := by
  obtain ⟨hport, hread⟩ := h
  exact fun k h1 hk => seen_eq (symbolAt_quiet s k (d k) hport (hread k h1 hk))

/-- Settles O48: with every entry written the attempt has nowhere to stop, and it ends in the closed form over the symbols it
sees, which are those of the entries. -/
theorem decodeCompletes : Obligations.DecodeCompletes := by
  intro x s d hwf hduty
  rw [← decodeLegal_iff] at hwf
  rw [← toNat_lengthOf] at hduty ⊢
  rw [← decodeClosed_congr _ _ _ (seen_of_hostDuty hduty)]
  rcases exec_decode_cases x s with ⟨hl, -⟩ | ⟨-, u, -, hba, hpv, hu, he⟩ | ⟨-, k, hk, hread, -⟩
  · rw [hwf] at hl; cases hl
  · exact ⟨respond 0#64 u, he, ⟨rfl, rfl, congrArg (· ++ _) hu.received⟩, hba, hpv, hu.i, hu.cnt, hu.offset, hu.phase,
      hu.tOne, hu.tZero, hu.inputs, hu.portWrites, fun k => congrArg (Memory.read · k) hu.tbuf⟩
  · obtain ⟨-, hwritten⟩ := hduty
    rw [hwritten k hk.pos hk.lt] at hread; cases hread

end Sys2Proof.Machine
end

section
/-! PROOFS. The timing classifier: its bands as ranges of integers, the priority chain on numbers and the branches of it, and
the command CLASSIFY. -/

namespace Sys2Proof.Machine

/-! ### The bands and the chain on numbers -/

theorem inBand_iff (w : Nat) (d : Duration) :
    inBand w d = true ↔ 9 * w < 10 * d.toNat ∧ 10 * d.toNat < 11 * w := by
  simp only [inBand, Bool.and_eq_true, decide_eq_true_eq]

/-- The SYNC band: ten per cent around 1000 (R64). -/
theorem inBand_syncW_iff (d : Duration) : inBand Config.syncW d = true ↔ 900 < d.toNat ∧ d.toNat < 1100 := by
  rw [inBand_iff, Config.syncW]
  omega

/-- The HEAD band: ten per cent around 7900 (R64). -/
theorem inBand_headW_iff (d : Duration) : inBand Config.headW d = true ↔ 7110 < d.toNat ∧ d.toNat < 8690 := by
  rw [inBand_iff, Config.headW]
  omega

/-- The two tests against the thresholds, once both bands are ruled out (R63). -/
def thresholdSymbol (tOne tZero d : Duration) : Symbol :=
  if tOne.toNat < d.toNat then .one else if tZero.toNat < d.toNat then .zero else .noise

theorem classify_eq (tOne tZero d : Duration) : classify tOne tZero d =
    if 900 < d.toNat ∧ d.toNat < 1100 then .sync
    else if 7110 < d.toNat ∧ d.toNat < 8690 then .head
    else thresholdSymbol tOne tZero d := by
  simp only [classify, thresholdSymbol, inBand_syncW_iff, inBand_headW_iff, BitVec.lt_def]

/-- Settles O33: `classify_eq` with the tests against the thresholds written out. -/
theorem classifyIsPriorityChain : Obligations.ClassifyIsPriorityChain := classify_eq

/-! ### The branches of the chain -/

section
variable (tOne tZero : Duration) {d : Duration}

theorem classify_of_sync (h : 900 < d.toNat ∧ d.toNat < 1100) : classify tOne tZero d = .sync := by
  rw [classify_eq, if_pos h]

theorem classify_of_head (h : 7110 < d.toNat ∧ d.toNat < 8690) : classify tOne tZero d = .head := by
  have hsync : ¬(900 < d.toNat ∧ d.toNat < 1100) := by omega
  rw [classify_eq, if_neg hsync, if_pos h]

theorem classify_outside_bands (hsync : ¬(900 < d.toNat ∧ d.toNat < 1100)) (hhead : ¬(7110 < d.toNat ∧ d.toNat < 8690)) :
    classify tOne tZero d = thresholdSymbol tOne tZero d := by
  rw [classify_eq, if_neg hsync, if_neg hhead]

end

/-- A duration classified as ONE is above `T_ONE`: the bands give other symbols. -/
theorem lt_of_classify_eq_one {tOne tZero d : Duration} (h : classify tOne tZero d = .one) : tOne.toNat < d.toNat := by
  rw [classify_eq, thresholdSymbol] at h
  split_ifs at h with _ _ hone
  exact hone

/-- A duration classified as ZERO lies above `T_ZERO` and not above `T_ONE`. -/
theorem bounds_of_classify_eq_zero {tOne tZero d : Duration} (h : classify tOne tZero d = .zero) :
    tZero.toNat < d.toNat ∧ d.toNat ≤ tOne.toNat := by
  rw [classify_eq, thresholdSymbol] at h
  split_ifs at h with _ _ hone hzero
  exact ⟨hzero, Nat.le_of_not_lt hone⟩

/-- Settles O34: the first five rows each take one branch of the chain; the last two hold because a ONE is above `T_ONE` and a
ZERO between the thresholds. -/
theorem classifyCornerCases : Obligations.ClassifyCornerCases := by
  intro tOne tZero
  refine ⟨?_, fun d hd => ?_, fun d hlo hhi => ?_, fun d hlo hhi => ?_, fun d hlong hone => ?_, fun hle d h => ?_,
    fun hzmax homax d => ⟨fun h => ?_, fun h => ?_⟩⟩
  · rw [classify_outside_bands tOne tZero (by decide) (by decide)]
    exact (if_neg (Nat.not_lt_zero _)).trans (if_neg (Nat.not_lt_zero _))
  · exact classify_outside_bands tOne tZero (by omega) (by omega)
  · exact classify_of_sync tOne tZero (by omega)
  · exact classify_of_head tOne tZero (by omega)
  · rw [classify_outside_bands tOne tZero (by omega) (by omega)]
    exact if_pos hone
  · obtain ⟨hzero, hone⟩ := bounds_of_classify_eq_zero h
    omega
  · have hone := lt_of_classify_eq_one h
    have hd := d.isLt
    omega
  · obtain ⟨hzero, -⟩ := bounds_of_classify_eq_zero h
    have hd := d.isLt
    omega

/-! ### CLASSIFY -/

/-- CLASSIFY responds and does nothing else (R62). -/
theorem exec_classify (d : Duration) (s : State) :
    exec (.classify d) s = .next (respond ((symbolWires s d).zeroExtend 64) s) := rfl

/-- A command that only responds changes nothing else. -/
theorem answersOnly_of_respond {i : Instr} {s : State} {v : RspData} (h : exec i s = .next (respond v s)) :
    answersOnly i s v :=
  ⟨respond v s, h, ⟨rfl, rfl, rfl⟩, sameCore_answer _ (sameCore_refl s), rfl, rfl⟩

/-- Settles O27: the answer is the code on the symbol wires, one case per symbol (R45). -/
theorem classifyRespondsSymbolCode : Obligations.ClassifyRespondsSymbolCode := by
  refine ⟨fun d s => ?_, fun d => decodeWord_encode (.classify d)⟩
  have hanswer := answersOnly_of_respond (exec_classify d s)
  rw [symbolWires] at hanswer
  generalize classify s.tOne s.tZero d = x at hanswer ⊢
  cases x with
  | noise => exact hanswer
  | zero => exact hanswer
  | one => exact hanswer
  | sync => exact hanswer
  | head => exact hanswer

end Sys2Proof.Machine
end

section
/-! PROOFS. The sync pattern detector: the three ways SYNCDET and HEADCHK abort an attempt, each by the law of the attempt for
that way, and the one end state all of them leave. -/

namespace Sys2Proof.Machine

/-- An attempt that is ended while the packet is still as CLEAR left it ends with an empty packet and every transient at rest
(R74). -/
theorem ends_cleared {n : Index} {s u : State} {o : AttemptOutcome} (h : attempt n s = .next (endAttempt u, o))
    (hba : u.ba = 0#47) (hpv : u.pv = 0#64) :
    ∃ t, attempt n s = .next (t, o) ∧ t.ba = 0#47 ∧ t.pv = 0#64 ∧ t.i = 0#7 ∧ t.cnt = 0#4 ∧ t.offset = 0#7 ∧
      t.phase = .idle :=
  ⟨endAttempt u, h, hba, hpv, rfl, rfl, rfl, rfl⟩

/-- Settles O44: the scan comes to entry `k` after `k - 1` SYNC pulses and breaks there (`attempt_break`). -/
theorem brokenSyncRunAborts : Obligations.BrokenSyncRunAborts := by
  intro n s k x h1 h8 hn hs hx hne
  obtain ⟨c, rfl⟩ : ∃ c, k = c + 1 := ⟨k - 1, by omega⟩
  have hrun : ∀ l, 1 ≤ l → l ≤ c → symbolAt s l = .next .sync := fun l hl hlc => hs l hl (Nat.lt_succ_of_le hlc)
  exact ends_cleared (attempt_break s n c x h8 hn hrun hx hne) rfl rfl

/-- Settles O45: the scan runs out of entries inside the SYNC run (`attempt_short`). -/
theorem shortSyncRunAborts : Obligations.ShortSyncRunAborts := by
  intro n s h8 hs
  obtain ⟨c, hend⟩ := attempt_short s n h8 hs
  exact ends_cleared hend rfl rfl

/-- Settles O46: the SYNC run is complete and HEADCHK finds no HEAD behind it (`attempt_noHead`). -/
theorem missingHeadAborts : Obligations.MissingHeadAborts := by
  intro n s hn hs hhead
  exact ends_cleared (attempt_noHead s n hn hs hhead) rfl rfl

end Sys2Proof.Machine
end

section
/-! PROOFS. The bit-stream accumulator: CLEAR, what one payload pulse does to the cells and to the accumulator, the closed form
of CLEAR and BITDEC, and the two commands that read the accumulator and the cells out. -/

namespace Sys2Proof.Machine

/-! ### CLEAR -/

/-- Settles O41: CLEAR is the zeroing of the packet in its own phase, as R79 writes it. -/
theorem clearZeroesPacket : Obligations.ClearZeroesPacket := fun _ => rfl

/-! ### One payload pulse -/

/-- Shifting a bit into `PV` doubles it and adds the bit, modulo `2^64` (R81, R85). -/
theorem toNat_shiftIn_pv (b : Bool) (s : State) : (shiftIn b s).pv.toNat = (2 * s.pv.toNat + b.toNat) % 2 ^ 64 := by
  have hconcat : (shiftIn b s).pv = s.pv.shiftConcat b := by
    ext i hi
    rw [shiftIn_pv, BitVec.getElem_shiftConcat]
    cases i <;> simp
  rw [hconcat, BitVec.toNat_shiftConcat, Nat.shiftLeft_eq, pow_one, Nat.mul_comm]

/-- A cell that exists holds the bit written to it (R82). -/
theorem getLsbD_writeCell_same {k : Nat} (hk : k < 47) (b : Bool) (s : State) : (writeCell k b s).ba.getLsbD k = b := by
  rw [getLsbD_writeCell, if_pos ⟨rfl, hk⟩]

/-- A write leaves every other cell (R82). -/
theorem getLsbD_writeCell_other {k c : Nat} (hc : c ≠ k) (b : Bool) (s : State) :
    (writeCell k b s).ba.getLsbD c = s.ba.getLsbD c := by
  rw [getLsbD_writeCell, if_neg fun h => hc h.1]

/-- A write beyond the last cell is dropped (R82). -/
theorem writeCell_dropped {k : Nat} (hk : 47 ≤ k) (b : Bool) (s : State) : writeCell k b s = s :=
  if_neg (Nat.not_lt.2 hk)

/-- A ONE or ZERO touches the cells and the accumulator only (R81). -/
theorem writeCell_shiftIn_frame (k : Nat) (b : Bool) (s : State) :
    writeCell k b (shiftIn b s) =
      { s with ba := (writeCell k b (shiftIn b s)).ba, pv := (writeCell k b (shiftIn b s)).pv } := by
  unfold writeCell
  split <;> rfl

/-- Settles O42: a ONE and a ZERO shift their bit into `PV` and write it to the cell `i - offset`; the rules for the shift and for
the write, in range and beyond, give the clauses for both. -/
theorem pulseWritesCellAndShifts : Obligations.PulseWritesCellAndShifts := by
  intro s k hk
  have hone : pulse .one s = writeCell k true (shiftIn true s) := by rw [hk, pulse]
  have hzero : pulse .zero s = writeCell k false (shiftIn false s) := by rw [hk, pulse]
  rw [hone, hzero]
  refine ⟨?_, ?_, fun hin => ?_, fun c hc => ?_, fun hout => ?_, ?_, ?_, rfl, rfl, rfl⟩
  · rw [writeCell_pv, toNat_shiftIn_pv, Bool.toNat_true]
  · rw [writeCell_pv, toNat_shiftIn_pv, Bool.toNat_false, Nat.add_zero]
  · have hk47 : k < 47 := Nat.lt_succ_of_le hin
    exact ⟨getLsbD_writeCell_same hk47 true _, getLsbD_writeCell_same hk47 false _⟩
  · exact ⟨getLsbD_writeCell_other hc true _, getLsbD_writeCell_other hc false _⟩
  · rw [writeCell_dropped hout, writeCell_dropped hout]
    exact ⟨rfl, rfl⟩
  · exact writeCell_shiftIn_frame k true s
  · exact writeCell_shiftIn_frame k false s

/-! ### CLEAR and BITDEC -/

theorem getLsbD_payloadBits_eq_true_iff {n k : Nat} (f : Nat → Symbol) (hk : k < 47) :
    (payloadBits n f).getLsbD k = true ↔ 10 + k < n ∧ f (10 + k) = .one := by
  rw [getLsbD_payloadBits n f k hk, payloadOne, Bool.and_eq_true, decide_eq_true_eq, beq_iff_eq]

/-- With the host's duties met BITDEC after CLEAR has nowhere to stop, and leaves the closed form over the symbols of the
entries (R80, R89). -/
theorem bitdec_clear_of_hostDuty {n : Index} {s : State} {d : Nat → Duration} (h10 : 10 ≤ n.toNat) (h64 : n.toNat ≤ 64)
    (ho : s.offset = 10#7) (hduty : hostDuty n.toNat d s) :
    ∃ t, bitdec n (clear s) = .next t ∧ t.ba = payloadBits n.toNat (symbolsOf s d) ∧
      t.pv = payloadValue n.toNat (symbolsOf s d) := by
  have hseen : ∀ k, 10 ≤ k → k < n.toNat → seen (clear s) k = symbolsOf s d k := fun k hk hn =>
    (seen_congr k (symbolAt_clear s k)).trans (seen_of_hostDuty hduty k (by omega) hn)
  rcases bitdec_cases (clear s) n h64 h10 ho rfl rfl with ⟨-, hnext⟩ | ⟨k, hk, hn, hread, -⟩
  · refine ⟨_, hnext, payloadBits_congr _ _ _ hseen, ?_⟩
    exact congrArg (BitVec.ofNat 64) (payloadNumber_congr _ _ _ hseen)
  · obtain ⟨-, hwritten⟩ := hduty
    rw [clear_tbuf, hwritten k (by omega) hn] at hread
    cases hread

/-- Settles O43: the closed form read cell by cell, and its number, which at most 54 pulses keep below `2^54`. -/
theorem bitdecClosedForm : Obligations.BitdecClosedForm := by
  intro n s d h10 h64 ho hduty
  obtain ⟨t, hnext, hba, hpv⟩ := bitdec_clear_of_hostDuty h10 h64 ho hduty
  obtain ⟨hval, hlt⟩ := toNat_payloadValue (symbolsOf s d) h10 h64
  refine ⟨t, hnext, fun k hk => ?_, hpv, ?_⟩
  · rw [hba]
    exact getLsbD_payloadBits_eq_true_iff _ (Nat.lt_succ_of_le hk)
  · rw [hpv, hval]
    exact hlt

/-! ### GET_PACKET and GET_BITS -/

/-- GET_PACKET responds and does nothing else (R86). -/
theorem exec_getPacket (x : Operand) (s : State) : exec (.getPacket x) s = .next (respond s.pv s) := rfl

/-- GET_BITS responds and does nothing else (R87). -/
theorem exec_getBits (x : Operand) (s : State) : exec (.getBits x) s = .next (respond (s.ba.zeroExtend 64) s) := rfl

/-- Settles O25: GET_PACKET only responds, and its word is its own encoding. -/
theorem getPacketRespondsAccumulator : Obligations.GetPacketRespondsAccumulator :=
  ⟨fun x s => answersOnly_of_respond (exec_getPacket x s), fun x => decodeWord_encode (.getPacket x)⟩

/-- Settles O26: the response is `BA` extended by zeros, which keeps bits 46:0 and has none above. -/
theorem getBitsRespondsCells : Obligations.GetBitsRespondsCells := by
  refine ⟨fun x s => ⟨_, answersOnly_of_respond (exec_getBits x s), fun k hk => ?_, fun k hk => ?_⟩,
    fun x => decodeWord_encode (.getBits x)⟩
  · have hk64 : k < 64 := by omega
    rw [BitVec.zeroExtend_eq_setWidth, BitVec.getLsbD_setWidth, decide_eq_true hk64, Bool.true_and]
  · rw [BitVec.zeroExtend_eq_setWidth, BitVec.getLsbD_setWidth, BitVec.getLsbD_of_ge _ k hk, Bool.and_false]

end Sys2Proof.Machine
end

section
/-! PROOFS. The checksum validator: the reordered copy cell by cell, the rounds as the XOR form of R96 and by parities, and what
flipped cells do. The check is linear over XOR: the accumulator and the transmitted checksum of `a ^^^ b` are the XORs of those
of `a` and `b`, so a flip acts as the array that holds the flipped cells alone. -/

namespace Sys2Proof.Machine

/-! ### The reordered copy -/

/-- The cell of `BA` at position `j` of the reordered copy (R93). -/
def cellAt (j : Nat) : Nat := if 8 ≤ j ∧ j < 12 then j + 28 else j

theorem getLsbD_reorder (ba : BitArray) {j : Nat} (hj : j < 36) : (reorder ba).getLsbD j = ba.getLsbD (cellAt j) := by
  have hparts : (reorder ba).getLsbD j =
      if j < 8 then (ba.extractLsb' 0 8).getLsbD j
      else if j - 8 < 4 then (ba.extractLsb' 36 4).getLsbD (j - 8)
      else (ba.extractLsb' 12 24).getLsbD (j - 8 - 4) := by
    refine BitVec.getLsbD_append.trans ?_
    rw [BitVec.getLsbD_append]
  rw [hparts, cellAt]
  simp only [BitVec.getLsbD_extractLsb']
  rcases (by omega : j < 8 ∨ (8 ≤ j ∧ j < 12) ∨ 12 ≤ j) with hid | ⟨h8, htrail⟩ | hbody
  · rw [if_pos hid, if_neg (by omega), decide_eq_true hid, Bool.true_and, Nat.zero_add]
  · rw [if_neg (by omega), if_pos (by omega), if_pos ⟨h8, htrail⟩, decide_eq_true (by omega), Bool.true_and,
      show 36 + (j - 8) = j + 28 by omega]
  · rw [if_neg (by omega), if_neg (by omega), if_neg (by omega), decide_eq_true (by omega), Bool.true_and,
      show 12 + (j - 8 - 4) = j by omega]

/-- Settles O36: the three groups of `cellAt`. -/
theorem reorderedCopyOfCells : Obligations.ReorderedCopyOfCells := by
  refine fun ba => ⟨fun j hj => ?_, fun j hj => ?_, fun j hj => ?_⟩
  · rw [getLsbD_reorder ba (by omega), cellAt, if_neg (by omega)]
  · rw [getLsbD_reorder ba (by omega), cellAt, if_pos (by omega), show 8 + j + 28 = 36 + j by omega]
  · rw [getLsbD_reorder ba (by omega), cellAt, if_neg (by omega)]

/-- Two arrays with the same cells 0 to 7 and 12 to 39 have the same reordered copy (R90, R93). -/
theorem reorder_congr {a b : BitArray} (h : ∀ j, j < 36 → a.getLsbD (cellAt j) = b.getLsbD (cellAt j)) :
    reorder a = reorder b :=
  BitVec.eq_of_getLsbD_eq fun j hj => by rw [getLsbD_reorder a hj, getLsbD_reorder b hj, h j hj]

/-! ### The rounds are the XOR form -/

/-- The mask in use at position `j` is `M[j mod 3]` (R96). -/
theorem feedback_mask_ckRounds (r : Reordered) (j : Nat) : feedback (ckRounds r j ckStart).mask = maskAt j := by
  induction j with
  | zero => simp only [ckRounds]; decide
  | succ j ih =>
    rw [ckRounds_succ, ckRound, ih]
    exact feedback_maskAt j

/-- The rounds accumulate the XOR form, as long as the 6-bit counter does not wrap (R94, R96). -/
theorem acc_ckRounds (r : Reordered) {k : Nat} (hk : k ≤ 64) : (ckRounds r k ckStart).acc = maskXor r k := by
  induction k with
  | zero => rfl
  | succ k ih =>
    have hj : (ckRounds r k ckStart).j.toNat = k := by
      rw [ckRounds_j, BitVec.toNat_ofNat, Nat.mod_eq_of_lt (by omega)]
    rw [ckRounds_succ, ckRound, hj, feedback_mask_ckRounds, ih (by omega), maskXor]
    cases r.getLsbD k <;> simp

theorem checksum_acc (ba : BitArray) : (checksum ba).acc = maskXor (reorder ba) 36 := acc_ckRounds _ (by decide)

theorem checksum_tx (ba : BitArray) : (checksum ba).tx = transmitted ba := rfl

/-! ### The XOR form by parities -/

/-- The parity of the number of set bits of `r` below `k` at positions equal to `m` modulo 3. -/
def parityBelow (r : Reordered) (m k : Nat) : Bool :=
  ((List.range k).filter fun j => j % 3 == m && r.getLsbD j).length % 2 == 1

theorem parityAt_eq (r : Reordered) (m : Nat) : parityAt r m = parityBelow r m 36 := rfl

theorem parityBelow_succ (r : Reordered) (m k : Nat) :
    parityBelow r m (k + 1) = (parityBelow r m k ^^ (k % 3 == m && r.getLsbD k)) := by
  simp only [parityBelow, List.range_succ, List.filter_append, List.length_append]
  generalize ((List.range k).filter _).length = c
  cases h : (k % 3 == m && r.getLsbD k) with
  | false => simp [h]
  | true =>
    rcases Nat.mod_two_eq_zero_or_one c with hc | hc <;> simp [h, Nat.add_mod, hc]

/-- The accumulator for the parities of the three residue classes (R96). -/
def maskOfParities (p0 p1 p2 : Bool) : Nibble :=
  (if p0 then 0xC#4 else 0#4) ^^^ (if p1 then 0x6#4 else 0#4) ^^^ (if p2 then 0xA#4 else 0#4)

/-- One more position with bit `b` turns over the parity of its class, and XORs its mask. -/
theorem maskOfParities_xor_maskAt (p0 p1 p2 b : Bool) (k : Nat) :
    maskOfParities p0 p1 p2 ^^^ (if b then maskAt k else 0#4) =
      maskOfParities (p0 ^^ (k % 3 == 0 && b)) (p1 ^^ (k % 3 == 1 && b)) (p2 ^^ (k % 3 == 2 && b)) := by
  have hclass : k % 3 = 0 ∨ k % 3 = 1 ∨ k % 3 = 2 := by omega
  rcases hclass with h | h | h <;> simp only [maskAt, h] <;> revert p0 p1 p2 b <;> decide

theorem maskXor_eq_maskOfParities (r : Reordered) (k : Nat) :
    maskXor r k = maskOfParities (parityBelow r 0 k) (parityBelow r 1 k) (parityBelow r 2 k) := by
  induction k with
  | zero => simp [maskXor, parityBelow, maskOfParities]
  | succ k ih => rw [maskXor, ih, maskOfParities_xor_maskAt]; simp only [parityBelow_succ]

theorem checksum_acc_eq_maskOfParities (ba : BitArray) :
    (checksum ba).acc =
      maskOfParities (parityAt (reorder ba) 0) (parityAt (reorder ba) 1) (parityAt (reorder ba) 2) := by
  rw [checksum_acc, maskXor_eq_maskOfParities]; rfl

/-- The four values of the accumulator (R96). -/
theorem maskOfParities_mem (p0 p1 p2 : Bool) :
    maskOfParities p0 p1 p2 = 0x0#4 ∨ maskOfParities p0 p1 p2 = 0x6#4 ∨ maskOfParities p0 p1 p2 = 0xA#4 ∨
      maskOfParities p0 p1 p2 = 0xC#4 := by
  revert p0 p1 p2; decide

/-- The bits of the accumulator, from bit 3 down (R96). -/
theorem getLsbD_maskOfParities (p0 p1 p2 : Bool) :
    (maskOfParities p0 p1 p2).getLsbD 3 = (p0 ^^ p2) ∧ (maskOfParities p0 p1 p2).getLsbD 2 = (p0 ^^ p1) ∧
    (maskOfParities p0 p1 p2).getLsbD 1 = (p1 ^^ p2) ∧ (maskOfParities p0 p1 p2).getLsbD 0 = false := by
  revert p0 p1 p2; decide

theorem checksum_acc_mem (ba : BitArray) :
    (checksum ba).acc = 0x0#4 ∨ (checksum ba).acc = 0x6#4 ∨ (checksum ba).acc = 0xA#4 ∨ (checksum ba).acc = 0xC#4 := by
  rw [checksum_acc_eq_maskOfParities]
  exact maskOfParities_mem _ _ _

theorem getLsbD_checksum_acc (ba : BitArray) :
    (checksum ba).acc.getLsbD 3 = (parityAt (reorder ba) 0 ^^ parityAt (reorder ba) 2) ∧
    (checksum ba).acc.getLsbD 2 = (parityAt (reorder ba) 0 ^^ parityAt (reorder ba) 1) ∧
    (checksum ba).acc.getLsbD 1 = (parityAt (reorder ba) 1 ^^ parityAt (reorder ba) 2) ∧
    (checksum ba).acc.getLsbD 0 = false := by
  rw [checksum_acc_eq_maskOfParities]
  exact getLsbD_maskOfParities _ _ _

/-- Settles O37: the mask round by round, the rounds as the XOR form, and that form by parities. -/
theorem checksumClosedForm : Obligations.ChecksumClosedForm :=
  ⟨fun r j _ => feedback_mask_ckRounds r j, fun ba => ⟨checksum_acc ba, checksum_acc_mem ba, getLsbD_checksum_acc ba⟩⟩

/-! ### The check is linear over XOR -/

theorem reorder_xor (a b : BitArray) : reorder (a ^^^ b) = reorder a ^^^ reorder b :=
  BitVec.eq_of_getLsbD_eq fun j hj => by simp only [getLsbD_reorder _ hj, BitVec.getLsbD_xor]

theorem maskXor_xor (a b : Reordered) (k : Nat) : maskXor (a ^^^ b) k = maskXor a k ^^^ maskXor b k := by
  induction k with
  | zero => exact BitVec.xor_self.symm
  | succ k ih =>
    have hbit : ∀ p q : Bool, (if p ^^ q then maskAt k else 0#4) =
        (if p then maskAt k else 0#4) ^^^ if q then maskAt k else 0#4 := by
      intro p q; cases p <;> cases q <;> simp
    rw [maskXor, maskXor, maskXor, ih, BitVec.getLsbD_xor, hbit]
    ac_rfl

theorem transmitted_xor (a b : BitArray) : transmitted (a ^^^ b) = transmitted a ^^^ transmitted b :=
  BitVec.eq_of_getLsbD_eq fun k hk => by simp only [getLsbD_transmitted _ k hk, BitVec.getLsbD_xor]

theorem checksum_acc_xor (a b : BitArray) : (checksum (a ^^^ b)).acc = (checksum a).acc ^^^ (checksum b).acc := by
  rw [checksum_acc, checksum_acc, checksum_acc, reorder_xor, maskXor_xor]

theorem checksum_tx_xor (a b : BitArray) : (checksum (a ^^^ b)).tx = (checksum a).tx ^^^ (checksum b).tx :=
  transmitted_xor a b

/-- What the two checksums of an array differ by. -/
def syndrome (ba : BitArray) : Nibble := (checksum ba).acc ^^^ (checksum ba).tx

/-- An array is accepted exactly when its checksums do not differ (R95). -/
theorem accept_iff_syndrome (ba : BitArray) : (checksum ba).accept = true ↔ syndrome ba = 0#4 := by
  rw [checksum_accept, beq_iff_eq, syndrome, BitVec.xor_eq_zero_iff]

theorem syndrome_xor (a b : BitArray) : syndrome (a ^^^ b) = syndrome a ^^^ syndrome b := by
  rw [syndrome, syndrome, syndrome, checksum_acc_xor, checksum_tx_xor]
  ac_rfl

/-! ### One flipped cell -/

/-- The position of a covered cell in the reordered copy (R98). -/
def positionOf (c : Nat) : Nat := if c < 36 then c else c - 28

/-- The cells fed to the mask (R98). -/
def Covered (c : Nat) : Prop := c ≤ 7 ∨ (12 ≤ c ∧ c ≤ 39)

theorem eq_cellAt_iff {c j : Nat} (hc : Covered c) (hj : j < 36) : c = cellAt j ↔ positionOf c = j := by
  unfold Covered at hc
  unfold cellAt positionOf
  split_ifs <;> omega

theorem positionOf_lt {c : Nat} (hc : Covered c) : positionOf c < 36 := by
  unfold Covered at hc
  unfold positionOf
  split_ifs <;> omega

theorem cellAt_covered {j : Nat} (hj : j < 36) : Covered (cellAt j) := by
  unfold Covered cellAt
  split_ifs <;> omega

theorem getLsbD_twoPow_eq {w i k : Nat} (hi : i < w) : (BitVec.twoPow w i).getLsbD k = decide (i = k) := by
  rw [BitVec.getLsbD_twoPow, decide_eq_true hi, Bool.true_and]

theorem twoPow_ne_zero {w i : Nat} (hi : i < w) : BitVec.twoPow w i ≠ 0#w := fun h => by
  have hbit := getLsbD_twoPow_eq (k := i) hi
  rw [h] at hbit
  simp at hbit

theorem maskAt_congr {i j : Nat} (h : i % 3 = j % 3) : maskAt i = maskAt j := by
  unfold maskAt; rw [h]

theorem maskAt_ne_zero (j : Nat) : maskAt j ≠ 0#4 := by
  unfold maskAt
  split <;> decide

theorem maskXor_zero (k : Nat) : maskXor 0#36 k = 0#4 := by
  induction k with
  | zero => rfl
  | succ k ih => rw [maskXor, ih, BitVec.getLsbD_zero, if_neg Bool.false_ne_true, BitVec.xor_zero]

theorem maskXor_twoPow {j : Nat} (hj : j < 36) (k : Nat) :
    maskXor (BitVec.twoPow 36 j) k = if j < k then maskAt j else 0#4 := by
  induction k with
  | zero => rfl
  | succ k ih =>
    rw [maskXor, ih, getLsbD_twoPow_eq hj]
    rcases Nat.lt_trichotomy j k with h | rfl | h
    · simp [h, h.ne, Nat.lt_succ_of_lt h]
    · simp
    · simp [h.ne', show ¬ j < k by omega, show ¬ j < k + 1 by omega]

section
variable {c : Nat}

theorem reorder_twoPow_covered (hc : Covered c) : reorder (BitVec.twoPow 47 c) = BitVec.twoPow 36 (positionOf c) := by
  have hc47 : c < 47 := by unfold Covered at hc; omega
  apply BitVec.eq_of_getLsbD_eq
  intro j hj
  rw [getLsbD_reorder _ hj, getLsbD_twoPow_eq hc47, getLsbD_twoPow_eq (positionOf_lt hc)]
  exact decide_eq_decide.2 (eq_cellAt_iff hc hj)

theorem reorder_twoPow_uncovered (hc47 : c < 47) (hc : ¬Covered c) : reorder (BitVec.twoPow 47 c) = 0#36 := by
  apply BitVec.eq_of_getLsbD_eq
  intro j hj
  rw [getLsbD_reorder _ hj, getLsbD_twoPow_eq hc47, BitVec.getLsbD_zero, decide_eq_false_iff_not]
  exact fun h => hc (h ▸ cellAt_covered hj)

theorem checksum_acc_twoPow (hc : Covered c) : (checksum (BitVec.twoPow 47 c)).acc = maskAt (positionOf c) := by
  rw [checksum_acc, reorder_twoPow_covered hc, maskXor_twoPow (positionOf_lt hc), if_pos (positionOf_lt hc)]

theorem checksum_tx_twoPow (hc : Covered c) : (checksum (BitVec.twoPow 47 c)).tx = 0#4 := by
  unfold Covered at hc
  apply BitVec.eq_of_getLsbD_eq
  intro k hk
  rw [checksum_tx, getLsbD_transmitted _ k hk, getLsbD_twoPow_eq (by omega), BitVec.getLsbD_zero, decide_eq_false_iff_not]
  omega

theorem checksum_acc_twoPow_txCell (h8 : 8 ≤ c) (h11 : c ≤ 11) : (checksum (BitVec.twoPow 47 c)).acc = 0#4 := by
  rw [checksum_acc, reorder_twoPow_uncovered (by omega) (by unfold Covered; omega), maskXor_zero]

theorem checksum_tx_twoPow_txCell (h8 : 8 ≤ c) (h11 : c ≤ 11) :
    (checksum (BitVec.twoPow 47 c)).tx = BitVec.twoPow 4 (c - 8) := by
  apply BitVec.eq_of_getLsbD_eq
  intro k hk
  rw [checksum_tx, getLsbD_transmitted _ k hk, getLsbD_twoPow_eq (by omega), getLsbD_twoPow_eq (by omega)]
  exact decide_eq_decide.2 (by omega)

theorem syndrome_twoPow_covered (hc : Covered c) : syndrome (BitVec.twoPow 47 c) = maskAt (positionOf c) := by
  rw [syndrome, checksum_acc_twoPow hc, checksum_tx_twoPow hc, BitVec.xor_zero]

theorem syndrome_twoPow_txCell (h8 : 8 ≤ c) (h11 : c ≤ 11) :
    syndrome (BitVec.twoPow 47 c) = BitVec.twoPow 4 (c - 8) := by
  rw [syndrome, checksum_acc_twoPow_txCell h8 h11, checksum_tx_twoPow_txCell h8 h11, BitVec.zero_xor]

/-- No single cell that the check reads has a zero syndrome (R98). -/
theorem syndrome_twoPow_ne_zero (hc : c ≤ 39) : syndrome (BitVec.twoPow 47 c) ≠ 0#4 := by
  by_cases hcov : Covered c
  · rw [syndrome_twoPow_covered hcov]
    exact maskAt_ne_zero _
  · unfold Covered at hcov
    rw [syndrome_twoPow_txCell (by omega) (by omega)]
    exact twoPow_ne_zero (by omega)

/-- Flipping a covered cell turns the accumulator by its mask and leaves the transmitted checksum (R98). -/
theorem checksum_flip_covered (ba : BitArray) (hc : Covered c) :
    (checksum (ba ^^^ BitVec.twoPow 47 c)).acc = (checksum ba).acc ^^^ maskAt (positionOf c) ∧
    (checksum (ba ^^^ BitVec.twoPow 47 c)).tx = (checksum ba).tx := by
  rw [checksum_acc_xor, checksum_tx_xor, checksum_acc_twoPow hc, checksum_tx_twoPow hc, BitVec.xor_zero]
  exact ⟨rfl, rfl⟩

/-- Flipping a cell of the transmitted checksum turns that bit of it and leaves the accumulator (R98). -/
theorem checksum_flip_txCell (ba : BitArray) (h8 : 8 ≤ c) (h11 : c ≤ 11) :
    (checksum (ba ^^^ BitVec.twoPow 47 c)).acc = (checksum ba).acc ∧
    (checksum (ba ^^^ BitVec.twoPow 47 c)).tx = (checksum ba).tx ^^^ BitVec.twoPow 4 (c - 8) := by
  rw [checksum_acc_xor, checksum_tx_xor, checksum_acc_twoPow_txCell h8 h11, checksum_tx_twoPow_txCell h8 h11,
    BitVec.xor_zero]
  exact ⟨rfl, rfl⟩

/-- The check does not read cells 40 to 46 (R90). -/
theorem checksum_flip_unread (ba : BitArray) (h40 : 40 ≤ c) (h46 : c ≤ 46) :
    checksum (ba ^^^ BitVec.twoPow 47 c) = checksum ba := by
  refine checksum_congr fun k hk => ?_
  rw [BitVec.getLsbD_xor, getLsbD_twoPow_eq (by omega), decide_eq_false (by omega), Bool.xor_false]

end

/-- Settles O39: a flip acts as the array of that one cell, whose checksums are known for each range and whose syndrome is not
zero. -/
theorem singleCellFlips : Obligations.SingleCellFlips := by
  refine fun ba => ⟨fun c hc => ?_, fun c h36 h39 => ?_, fun c h8 h11 => checksum_flip_txCell ba h8 h11,
    fun c h40 h46 => checksum_flip_unread ba h40 h46, maskAt_ne_zero, fun c hc hacc => ?_⟩
  · have hpos : positionOf c = c := if_pos (by omega)
    simpa only [hpos] using checksum_flip_covered ba (c := c) (by unfold Covered; omega)
  · have hpos : positionOf c = c - 28 := if_neg (by omega)
    simpa only [hpos] using checksum_flip_covered ba (c := c) (by unfold Covered; omega)
  · rw [accept_iff_syndrome] at hacc
    rw [← Bool.not_eq_true, accept_iff_syndrome, syndrome_xor, hacc, BitVec.zero_xor]
    exact syndrome_twoPow_ne_zero hc

/-! ### The weakness of the check -/

/-- An array with its cells 8 to 11 replaced by a nibble. -/
def withTransmitted (ba : BitArray) (u : Nibble) : BitArray := (ba &&& ~~~(0xF00#47)) ||| (u.zeroExtend 47 <<< 8)

theorem getLsbD_not_txMask : ∀ k < 47, (~~~(0xF00#47)).getLsbD k = !decide (8 ≤ k ∧ k ≤ 11) := by decide

theorem getLsbD_withTransmitted (ba : BitArray) (u : Nibble) {k : Nat} (hk : k < 47) :
    (withTransmitted ba u).getLsbD k = if 8 ≤ k ∧ k ≤ 11 then u.getLsbD (k - 8) else ba.getLsbD k := by
  rw [withTransmitted, BitVec.getLsbD_or, BitVec.getLsbD_and, getLsbD_not_txMask k hk, BitVec.getLsbD_shiftLeft,
    BitVec.zeroExtend_eq_setWidth, BitVec.getLsbD_setWidth, decide_eq_true hk, decide_eq_true (by omega : k - 8 < 47)]
  by_cases htx : 8 ≤ k ∧ k ≤ 11
  · simp [htx, show ¬k < 8 by omega]
  · by_cases h8 : k < 8
    · simp [htx, h8]
    · simp [htx, BitVec.getLsbD_of_ge u (k - 8) (by omega)]

theorem checksum_withTransmitted (ba : BitArray) (u : Nibble) :
    (checksum (withTransmitted ba u)).acc = (checksum ba).acc ∧ (checksum (withTransmitted ba u)).tx = u := by
  constructor
  · rw [checksum_acc, checksum_acc,
      reorder_congr fun j hj => ?_]
    have hc := cellAt_covered hj
    unfold Covered at hc
    rw [getLsbD_withTransmitted ba u (by omega), if_neg (by omega)]
  · apply BitVec.eq_of_getLsbD_eq
    intro k hk
    rw [checksum_tx, getLsbD_transmitted _ k hk, getLsbD_withTransmitted ba u (by omega), if_pos (by omega),
      Nat.add_sub_cancel_left]

/-- An accepted array transmits what was accumulated (R95). -/
theorem checksum_tx_of_accept {ba : BitArray} (h : (checksum ba).accept = true) : (checksum ba).tx = (checksum ba).acc := by
  rw [checksum_accept, beq_iff_eq] at h
  exact h.symm

/-- Two covered flips at positions equal modulo 3 have the same mask, and so leave the syndrome as it was (R99). -/
theorem syndrome_flip_flip (ba : BitArray) {a b : Nat} (ha : Covered a) (hb : Covered b)
    (h : positionOf a % 3 = positionOf b % 3) :
    syndrome (ba ^^^ BitVec.twoPow 47 a ^^^ BitVec.twoPow 47 b) = syndrome ba := by
  rw [syndrome_xor, syndrome_xor, syndrome_twoPow_covered ha, syndrome_twoPow_covered hb, maskAt_congr h,
    BitVec.xor_assoc, BitVec.xor_self, BitVec.xor_zero]

/-- Settles O40: bit 0 and the range of the accumulator bind an accepted `tx`, equal masks cancel, and the one accepted value of
cells 8 to 11 is the accumulator. -/
theorem checksumWeaknesses : Obligations.ChecksumWeaknesses := by
  refine ⟨fun ba h8 => ?_, fun ba hacc => ?_, fun ba a b ha hb h => ?_, fun ba => ⟨(checksum ba).acc, fun u => ?_⟩⟩
  · rw [← Bool.not_eq_true]
    intro hacc
    have hbit : (checksum ba).tx.getLsbD 0 = ba.getLsbD 8 := getLsbD_transmitted ba 0 (by decide)
    obtain ⟨-, -, -, hzero⟩ := getLsbD_checksum_acc ba
    rw [checksum_tx_of_accept hacc, hzero, h8] at hbit
    cases hbit
  · rw [checksum_tx_of_accept hacc]
    exact checksum_acc_mem ba
  · rw [Bool.eq_iff_iff, accept_iff_syndrome, accept_iff_syndrome, syndrome_flip_flip ba ha hb h]
  · obtain ⟨hacc, htx⟩ := checksum_withTransmitted ba u
    change (checksum (withTransmitted ba u)).accept = true ↔ u = (checksum ba).acc
    rw [checksum_accept, hacc, htx, beq_iff_eq, eq_comm]

/-! ### A payload without ones -/

theorem checksum_zero : checksum 0#47 = ⟨true, 0#4, 0#4⟩ := by decide

/-- Settles O38: the check reads cells 0 to 39 only, and accepts the array of zeros. -/
theorem zeroPayloadIsAccepted : Obligations.ZeroPayloadIsAccepted := fun _ h =>
  (checksum_congr fun k hk => (h k hk).trans BitVec.getLsbD_zero.symm).trans checksum_zero

/-- Without a ONE among the payload pulses `PV` stays zero (R89). -/
theorem payloadNumber_eq_zero {n : Nat} {f : Nat → Symbol} (h10 : 10 ≤ n) (h : ∀ k, 10 ≤ k → k < n → f k ≠ .one) :
    payloadNumber n f = 0 := by
  induction n, h10 using Nat.le_induction with
  | base => rfl
  | succ n hn ih =>
    have hne := h n hn n.lt_succ_self
    rw [payloadNumber_succ n f hn, ih fun k hk hlt => h k hk (by omega)]
    unfold appendDigit
    split
    · next hone => exact absurd hone hne
    all_goals rfl

/-- With the host's duties met an attempt ends in the closed form over the symbols of the entries (R127). -/
theorem attempt_of_hostDuty {n : Index} {s : State} {d : Nat → Duration} (h64 : n.toNat ≤ 64)
    (hduty : hostDuty n.toNat d s) :
    ∃ t, attempt n s = .next (t, (decodeClosed n.toNat (symbolsOf s d)).2.2) ∧
      t.ba = (decodeClosed n.toNat (symbolsOf s d)).1 ∧ t.pv = (decodeClosed n.toNat (symbolsOf s d)).2.1 ∧
      AttemptEnd s t := by
  rw [← decodeClosed_congr _ _ _ (seen_of_hostDuty hduty)]
  rcases attempt_cases s n h64 with hend | ⟨k, hk, hread, -⟩
  · exact hend
  · obtain ⟨-, hwritten⟩ := hduty
    rw [hwritten k hk.pos hk.lt] at hread
    cases hread

/-- The closed form over a complete run, a HEAD and no ONE (R126). -/
theorem decodeClosed_of_no_one {n : Nat} {f : Nat → Symbol} (h10 : 10 ≤ n) (hs : ∀ k, 1 ≤ k → k ≤ 8 → f k = .sync)
    (hh : f 9 = .head) (h : ∀ k, 10 ≤ k → k < n → f k ≠ .one) : decodeClosed n f = (0#47, 0#64, .accept) := by
  have hpass : outcome2 n f = none := by
    rw [outcome2_run n f (by omega) hs, if_neg]
    rintro (h9 | hne)
    · omega
    · exact hne hh
  simp only [decodeClosed, hpass, payloadBits_eq_zero h, checksum_zero, payloadValue, payloadNumber_eq_zero h10 h,
    if_true]

/-- Settles O52: the attempt ends in the closed form, which over such symbols is the accepted empty packet. -/
theorem payloadWithoutOnesIsAccepted : Obligations.PayloadWithoutOnesIsAccepted := by
  intro n s d h10 h64 hduty hs hh hno
  obtain ⟨t, hatt, hba, hpv, -⟩ := attempt_of_hostDuty h64 hduty
  rw [decodeClosed_of_no_one h10 hs hh hno] at hatt hba hpv
  exact ⟨t, hatt, hba, hpv⟩

end Sys2Proof.Machine
end

section
/-! PROOFS. The field extractor: `rev(lo, hi)` as a sum, bit by bit and as a field of the number `BA`, what the five field
commands answer, and what they and GET_STATUS answer on a zero `BA`. -/

namespace Sys2Proof.Machine

/-! ### The reversed-order read -/

theorem cellNat_eq_ite (ba : BitArray) (k : Nat) : cellNat ba k = if ba.getLsbD k then 1 else 0 :=
  Bool.cond_eq_ite _ _ _

theorem revSum_eq_sum (ba : BitArray) (lo w : Nat) :
    revSum ba lo w = ∑ k ∈ Finset.range w, (if ba.getLsbD (lo + k) then 1 else 0) * 2 ^ k := by
  induction w with
  | zero => rfl
  | succ w ih => rw [revSum, ih, cellNat_eq_ite, Finset.sum_range_succ]

/-- Bit `k` of `rev(lo, hi)` is cell `lo + k` inside the range, and 0 above it. -/
theorem testBit_rev (ba : BitArray) (lo hi k : Nat) :
    (rev ba lo hi).testBit k = (decide (k < hi - lo + 1) && ba.getLsbD (lo + k)) := testBit_revSum ba lo _ k

/-- Settles O35: the sum by induction on the width of the range, the bits by `testBit_rev`. -/
theorem revIsReversedRead : Obligations.RevIsReversedRead := fun ba lo hi _ _ =>
  ⟨revSum_eq_sum ba lo _, rev_lt ba lo hi, fun k hk => by
    rw [testBit_rev, decide_eq_true (Nat.lt_succ_of_le hk), Bool.true_and]⟩

/-- `rev(lo, hi)` is the field of bits `hi:lo` of `BA` read as a number: the reversal is wiring only (R111). -/
theorem rev_eq_div_mod (ba : BitArray) (lo hi : Nat) : rev ba lo hi = ba.toNat / 2 ^ lo % 2 ^ (hi - lo + 1) := by
  apply Nat.eq_of_testBit_eq
  intro k
  rw [testBit_rev, Nat.testBit_mod_two_pow, Nat.testBit_div_two_pow, Nat.add_comm k lo, BitVec.testBit_toNat]

theorem rev_zero (lo hi : Nat) : rev 0#47 lo hi = 0 := by
  rw [rev_eq_div_mod, BitVec.toNat_ofNat, Nat.zero_mod, Nat.zero_div, Nat.zero_mod]

/-- A read of two cells (R105). -/
theorem rev_two_cells (ba : BitArray) (lo : Nat) : rev ba lo (lo + 1) = cellNat ba lo + 2 * cellNat ba (lo + 1) := by
  have hwidth : lo + 1 - lo + 1 = 2 := by omega
  rw [rev, hwidth]
  simp only [revSum, Nat.add_zero]
  omega

/-! ### The temperature -/

theorem temperatureNum_eq (ba : BitArray) : temperatureNum ba = ((rev ba 16 27 : Int) - 1220) * 5 := rfl

/-- The numerator at raw values 0 and 4095 (R106). -/
theorem temperatureNum_bounds (ba : BitArray) : -6100 ≤ temperatureNum ba ∧ temperatureNum ba ≤ 14375 := by
  have hraw := rev_lt ba 16 27
  rw [temperatureNum_eq]
  omega

/-- The numerator fits 16 signed bits, so the answer carries it unchanged (R108). -/
theorem toInt_temperature_answer (ba : BitArray) :
    ((BitVec.ofInt 16 (temperatureNum ba)).signExtend 64).toInt = temperatureNum ba := by
  obtain ⟨hlow, hhigh⟩ := temperatureNum_bounds ba
  rw [BitVec.toInt_signExtend_of_le (by decide), BitVec.toInt_ofInt_eq_self (by decide) (by omega) (by omega)]

/-! ### The humidity -/

theorem toNat_humidity_answer (ba : BitArray) : (BitVec.ofNat 64 (humidity ba)).toNat = humidity ba := by
  have hle := humidity_le ba
  rw [BitVec.toNat_ofNat, Nat.mod_eq_of_lt (by omega)]

/-- A register file with the nibbles `tens` and `units` in the humidity cells, zero elsewhere. -/
def withHumidityNibbles (tens units : Nat) : BitArray := BitVec.ofNat 47 (tens * 2 ^ 28 + units * 2 ^ 32)

theorem rev_withHumidityNibbles {tens units : Nat} (ht : tens ≤ 15) (hu : units ≤ 15) :
    rev (withHumidityNibbles tens units) 28 31 = tens ∧ rev (withHumidityNibbles tens units) 32 35 = units := by
  simp only [rev_eq_div_mod, withHumidityNibbles, BitVec.toNat_ofNat]
  omega

/-! ### The five field commands -/

section
variable (x : Operand) (s : State)

theorem exec_getId : exec (.getId x) s = .next (respond (BitVec.ofNat 64 (rev s.ba 0 7)) s) := rfl

theorem exec_getBattery : exec (.getBattery x) s = .next (respond (BitVec.ofNat 64 (1 - cellNat s.ba 13)) s) := rfl

theorem exec_getChannel : exec (.getChannel x) s = .next (respond (BitVec.ofNat 64 (rev s.ba 38 39)) s) := rfl

theorem exec_getTemperature :
    exec (.getTemperature x) s = .next (respond ((BitVec.ofInt 16 (temperatureNum s.ba)).signExtend 64) s) := rfl

theorem exec_getHumidity : exec (.getHumidity x) s = .next (respond (BitVec.ofNat 64 (humidity s.ba)) s) := rfl

end

/-- Settles O21: GET_TEMPERATURE only responds, and the answer read as signed is the numerator. -/
theorem getTemperatureRespondsNumerator : Obligations.GetTemperatureRespondsNumerator := by
  refine ⟨fun x s => ⟨_, answersOnly_of_respond (exec_getTemperature x s), ?_⟩,
    fun x => decodeWord_encode (.getTemperature x)⟩
  rw [toInt_temperature_answer]
  exact ⟨temperatureNum_eq s.ba, temperatureNum_bounds s.ba⟩

/-- Settles O22: GET_HUMIDITY only responds, and `withHumidityNibbles` gives any two nibbles. -/
theorem getHumidityRespondsTensAndUnits : Obligations.GetHumidityRespondsTensAndUnits := by
  refine ⟨fun x s => ⟨_, answersOnly_of_respond (exec_getHumidity x s), ?_⟩, fun x => decodeWord_encode (.getHumidity x),
    fun a b ha hb => ⟨_, rev_withHumidityNibbles ha hb⟩⟩
  rw [toNat_humidity_answer]
  exact ⟨rfl, humidity_le s.ba⟩

/-- Settles O18: GET_ID only responds, with eight cells. -/
theorem getIdRespondsIdCells : Obligations.GetIdRespondsIdCells :=
  ⟨fun x s => ⟨answersOnly_of_respond (exec_getId x s), Nat.le_of_lt_succ (rev_lt s.ba 0 7)⟩,
    fun x => decodeWord_encode (.getId x), rev_zero 0 7, by decide⟩

/-- Settles O19: GET_BATTERY only responds, by the two values of cell 13. -/
theorem getBatteryRespondsInvertedCell : Obligations.GetBatteryRespondsInvertedCell := by
  refine ⟨fun x s => ?_, fun x => decodeWord_encode (.getBattery x)⟩
  have hanswer := answersOnly_of_respond (exec_getBattery x s)
  rw [cellNat] at hanswer
  cases hcell : s.ba.getLsbD 13 with
  | true => rwa [hcell] at hanswer
  | false => rwa [hcell] at hanswer

/-- Settles O20: GET_CHANNEL only responds, with the two cells `rev(38, 39)` reads. -/
theorem getChannelRespondsTwoCells : Obligations.GetChannelRespondsTwoCells := by
  refine ⟨fun x s => ?_, fun x => decodeWord_encode (.getChannel x)⟩
  have hanswer := answersOnly_of_respond (exec_getChannel x s)
  rwa [rev_two_cells] at hanswer

/-! ### A zero register file -/

theorem cellNat_zero (k : Nat) : cellNat 0#47 k = 0 := by
  rw [cellNat, BitVec.getLsbD_zero, Bool.toNat_false]

theorem temperatureNum_zero : temperatureNum 0#47 = -6100 := by
  rw [temperatureNum_eq, rev_zero]
  rfl

theorem humidity_zero : humidity 0#47 = 0 := by
  rw [humidity, rev_zero, rev_zero]

/-- Humidity 0 is valid, and a numerator of -6100 is below -40.0 degrees (R116, R117). -/
theorem statusOf_zero : statusOf 0#47 = .invalidTemperature := by
  rw [statusOf, humidity_zero, temperatureNum_zero]
  rfl

/-- Settles O31: each answer is a function of what its command reads, and that is known on a zero array. -/
theorem zeroArrayAnswers : Obligations.ZeroArrayAnswers := by
  intro x s hba
  refine ⟨?_, ?_, ?_, ?_, ?_, ?_⟩
  · rw [answerOf_getId, hba, rev_zero]
  · rw [answerOf_getBattery, hba, cellNat_zero]
  · rw [answerOf_getChannel, hba, rev_zero]
  · rw [answerOf_getTemperature, hba, temperatureNum_zero]
    decide
  · rw [answerOf_getHumidity, hba, humidity_zero]
  · rw [answerOf_getStatus, hba, statusOf_zero]
    rfl

end Sys2Proof.Machine
end

section
/-! PROOFS. The sanity validator: the two checks in the words of R116 and R117, the code its priority encoder sends, and what
GET_STATUS answers and leaves unchanged. -/

namespace Sys2Proof.Machine

/-- R116 as it is worded. -/
theorem humidityInvalid_eq_true (hum : Nat) : humidityInvalid hum = true ↔ (hum > 100 ∨ hum < 10) ∧ hum ≠ 0 := by
  rw [humidityInvalid, Bool.and_eq_true, Bool.or_eq_true, decide_eq_true_iff, decide_eq_true_iff, bne_iff_ne, gt_iff_lt]

/-- R117 on the numerator. -/
theorem temperatureInvalid_eq_true (num : Int) : temperatureInvalid num = true ↔ num < -3600 ∨ num > 8100 := by
  rw [temperatureInvalid, Bool.or_eq_true, decide_eq_true_iff, decide_eq_true_iff, gt_iff_lt]

/-- The chain of R115: the temperature counts only where the humidity is valid. -/
theorem sanity_code (hum : Nat) (num : Int) :
    (sanity hum num).code.zeroExtend 64 =
      if (hum > 100 ∨ hum < 10) ∧ hum ≠ 0 then 1#64 else if num < -3600 ∨ num > 8100 then 2#64 else 0#64 := by
  simp only [sanity, humidityInvalid_eq_true, temperatureInvalid_eq_true]
  by_cases hhum : (hum > 100 ∨ hum < 10) ∧ hum ≠ 0
  · rw [if_pos hhum, if_pos hhum]
    rfl
  · rw [if_neg hhum, if_neg hhum]
    by_cases htemp : num < -3600 ∨ num > 8100
    · rw [if_pos htemp, if_pos htemp]
      rfl
    · rw [if_neg htemp, if_neg htemp]
      rfl

theorem exec_getStatus (x : Operand) (s : State) :
    exec (.getStatus x) s = .next (respond ((statusOf s.ba).code.zeroExtend 64) s) := rfl

/-- Settles O23: GET_STATUS only responds, with the code of the priority encoder on the humidity and the numerator. -/
theorem getStatusClassifies : Obligations.GetStatusClassifies := by
  refine ⟨fun x s => ?_, fun x => decodeWord_encode (.getStatus x)⟩
  have hanswer := answersOnly_of_respond (exec_getStatus x s)
  rwa [statusOf, sanity_code, humidity, temperatureNum_eq] at hanswer

end Sys2Proof.Machine
end

section
/-! PROOFS. The decode sequencer: an attempt is the closed form over the entries, so it knows nothing of what was before it; and
every command but a legal DECODE leaves the packet, and with it the later answers, as they were. -/

namespace Sys2Proof.Machine

/-! ### NOP -/

theorem exec_nop (x : Operand) (s : State) : exec (.nop x) s = .next (respond 0#64 s) := rfl

/-- Settles O17: NOP only responds, and it is the command of opcode 0. -/
theorem nopRespondsZero : Obligations.NopRespondsZero :=
  ⟨fun x s => answersOnly_of_respond (exec_nop x s), fun x => decodeWord_encode (.nop x)⟩

/-! ### Commands that leave the packet alone -/

theorem answerOf_getPacket (x : Operand) (s : State) : answerOf (.getPacket x) s = some s.pv := rfl

theorem answerOf_classify (d : Duration) (s : State) :
    answerOf (.classify d) s = some ((symbolWires s d).zeroExtend 64) := rfl

/-- A command that is no legal DECODE uses the working registers at most (R130). -/
theorem sameCore_of_exec {i : Instr} {s t : State} (hill : ∀ x, i = .decode x → i.wellFormed = false)
    (h : exec i s = .next t) : sameCore s t := by
  obtain ⟨hone, hzero, htbuf, hin, hport, -⟩ := exec_next_frame h
  rcases exec_next_registers h with ⟨hba, hpv, hphase, hi, hcnt, hoff⟩ | ⟨x, rfl, hlegal, -⟩
  · exact ⟨hba, hpv, hone, hzero, hi, hcnt, hoff, hphase, hin, hport, fun k => by rw [htbuf]⟩
  · rw [decodeLegal_iff, hill x rfl] at hlegal
    cases hlegal

/-- What a command other than DECODE answers is a function of `BA`, `PV` and the thresholds (R47). -/
theorem answerOf_congr {j : Instr} {s t : State} (hj : ∀ x, j ≠ .decode x) (h : sameCore s t) :
    answerOf j t = answerOf j s := by
  obtain ⟨hba, hpv, hone, hzero, -⟩ := h
  cases j with
  | decode x => exact absurd rfl (hj x)
  | getId x => rw [answerOf_getId, answerOf_getId, hba]
  | getBattery x => rw [answerOf_getBattery, answerOf_getBattery, hba]
  | getChannel x => rw [answerOf_getChannel, answerOf_getChannel, hba]
  | getTemperature x => rw [answerOf_getTemperature, answerOf_getTemperature, hba]
  | getHumidity x => rw [answerOf_getHumidity, answerOf_getHumidity, hba]
  | getStatus x => rw [answerOf_getStatus, answerOf_getStatus, hba]
  | getBits x => rw [answerOf_getBits, answerOf_getBits, hba]
  | chksum x => rw [answerOf_chksum, answerOf_chksum, hba]
  | getPacket x => rw [answerOf_getPacket, answerOf_getPacket, hpv]
  | classify d => rw [answerOf_classify, answerOf_classify, symbolWires, symbolWires, hone, hzero]
  | nop x => rfl
  | reservedC x => rfl
  | reservedD x => rfl
  | reservedE x => rfl
  | reservedF x => rfl

/-- Settles O30: the command leaves the core as it was (`sameCore_of_exec`), and the answers of the other commands depend on
nothing else (`answerOf_congr`). -/
theorem onlyLegalDecodeChangesPacket : Obligations.OnlyLegalDecodeChangesPacket := by
  intro i s t hill h
  have hsame := sameCore_of_exec hill h
  exact ⟨hsame, fun j hj => answerOf_congr hj hsame⟩

/-! ### The attempt as a function -/

/-- Settles O47: `attempt_of_hostDuty`, of which R127 names the outcome and the packet. -/
theorem attemptIsClosedForm : Obligations.AttemptIsClosedForm := by
  intro n s d h64 hduty
  obtain ⟨t, hatt, hba, hpv, -⟩ := attempt_of_hostDuty h64 hduty
  exact ⟨t, hatt, hba, hpv⟩

/-- With no concurrent writes the symbol of an entry depends on that entry and the thresholds only, also where it was never
written (R32, R38). -/
theorem symbolAt_quiet_congr {s s' : State} {k : Nat} (hport : s.portWrites = []) (hport' : s'.portWrites = [])
    (hone : s'.tOne = s.tOne) (hzero : s'.tZero = s.tZero) (hread : Memory.read s'.tbuf k = Memory.read s.tbuf k) :
    symbolAt s' k = symbolAt s k := by
  have hquiet : writtenMeanwhile [] k = false := rfl
  simp only [symbolAt_eq, readEntry, hport, hport', hone, hzero, hread, hquiet, Bool.false_eq_true, if_false]

/-- Where a scan stops depends on the symbols of entries 1 to `n - 1` only. -/
theorem Reaches.congr {n : Index} {s s' : State} {k : Nat}
    (hsym : ∀ l, 1 ≤ l → l < n.toNat → symbolAt s' l = symbolAt s l) (h : Reaches n s' k) : Reaches n s k := by
  obtain ⟨hpos, hlt, hstop, hrun, hhead, hpay⟩ := h
  refine ⟨hpos, hlt, hsym k hpos hlt ▸ hstop, fun l h1 hl h8 => ?_, fun h9 => ?_, fun l h10 hl => ?_⟩
  · rw [← hsym l h1 (by omega), hrun l h1 hl h8]
  · rw [← hsym 9 (by omega) (by omega), hhead h9]
  · have hl' := hsym l (by omega) (by omega)
    rw [← hl', ← seen_congr l hl', hpay l h10 hl]

/-- Two states that show the same symbols at entries 1 to `n - 1` give the attempt the same result (R120, R127). -/
theorem attempt_congr {n : Index} {s s' t : State} {o : AttemptOutcome} (h64 : n.toNat ≤ 64)
    (hsym : ∀ k, 1 ≤ k → k < n.toNat → symbolAt s' k = symbolAt s k) (h : attempt n s = .next (t, o)) :
    ∃ t', attempt n s' = .next (t', o) ∧ t'.ba = t.ba ∧ t'.pv = t.pv := by
  have hclosed : decodeClosed n.toNat (seen s') = decodeClosed n.toNat (seen s) :=
    decodeClosed_congr _ _ _ fun k h1 hk => seen_congr k (hsym k h1 hk)
  rcases attempt_cases s n h64 with ⟨u, hatt, hba, hpv, -⟩ | ⟨k, -, -, hatt⟩ <;> rw [hatt] at h <;> cases h
  rcases attempt_cases s' n h64 with ⟨t', hatt', hba', hpv', -⟩ | ⟨k, hk, -⟩
  · rw [hclosed] at hatt' hba' hpv'
    exact ⟨t', hatt', hba'.trans hba.symm, hpv'.trans hpv.symm⟩
  · rw [attempt_refused s n k h64 (hk.congr hsym)] at hatt
    cases hatt

/-- Settles O54: equal entries and thresholds show equal symbols (`symbolAt_quiet_congr`), and these give the attempt its result
(`attempt_congr`). -/
theorem attemptForgetsThePast : Obligations.AttemptForgetsThePast := by
  intro n s s' t o h64 hport hport' hone hzero hread
  exact attempt_congr h64 fun k h1 hk => symbolAt_quiet_congr hport hport' hone hzero (hread k h1 hk)

end Sys2Proof.Machine
end

section
/-! PROOFS. In place of exceptions: what an attempt that ended leaves, read off its outcome, and what a packet found there says
of the outcome. -/

namespace Sys2Proof.Machine

/-- An attempt that ended has the sequencer at rest, and it failed with the packet empty, or it was accepted with the payload it
saw as the packet (R137). -/
theorem attempt_next_cases {n : Index} {s t : State} {o : AttemptOutcome} (h64 : n.toNat ≤ 64)
    (h : attempt n s = .next (t, o)) :
    AttemptEnd s t ∧
      ((o ≠ .accept ∧ t.ba = 0#47 ∧ t.pv = 0#64) ∨
        (o = .accept ∧ 10 ≤ n.toNat ∧ (checksum t.ba).accept = true ∧ t.ba = payloadBits n.toNat (seen s) ∧
          t.pv = payloadValue n.toNat (seen s))) := by
  rcases attempt_cases s n h64 with ⟨u, hatt, hba, hpv, hend⟩ | ⟨k, -, -, hatt⟩ <;> rw [hatt] at h <;> cases h
  refine ⟨hend, ?_⟩
  rcases decodeClosed_cases n.toNat (seen s) with ⟨o, ho, hcl⟩ | ⟨h10, hacc, hcl⟩ <;> rw [hcl] at hba hpv ⊢
  · exact .inl ⟨ho, hba, hpv⟩
  · exact .inr ⟨rfl, h10, by rw [hba]; exact hacc, hba, hpv⟩

/-- Settles O50: the two ends of `attempt_next_cases`, the packet of the accepted one read over any symbols that agree with
those the attempt saw, and `answersIllegal_of_illFormed`. -/
theorem attemptEndStates : Obligations.AttemptEndStates := by
  refine ⟨fun n s t o h64 h => ?_, fun x s hill => answersIllegal_of_illFormed s hill⟩
  obtain ⟨hend, hpkt⟩ := attempt_next_cases h64 h
  refine ⟨hend.i, hend.cnt, hend.offset, hend.phase, ?_⟩
  rcases hpkt with ⟨ho, hba, hpv⟩ | ⟨rfl, h10, hacc, hba, hpv⟩
  · exact ⟨fun _ => ⟨hba, hpv⟩, fun hok => absurd hok ho⟩
  · refine ⟨fun hno => absurd rfl hno, fun _ => ⟨hacc, ?_, fun f hf => ?_⟩⟩
    · obtain ⟨hval, hlt⟩ := toNat_payloadValue (seen s) h10 h64
      rw [hpv, hval]
      exact hlt
    · have hseen : ∀ k, 10 ≤ k → k < n.toNat → seen s k = f k := fun k h1 hk => seen_eq (hf k h1 hk)
      rw [hba, hpv, payloadValue, payloadValue, payloadBits_congr _ _ _ hseen, payloadNumber_congr _ _ _ hseen]
      exact ⟨rfl, rfl⟩

/-- After a complete SYNC run and a HEAD an attempt of length 10 has no payload entry left to read, so it is accepted with an
empty packet (R126). -/
theorem attempt_ten {s : State} (hs : ∀ l, 1 ≤ l → l ≤ 8 → symbolAt s l = .next .sync) (hh : symbolAt s 9 = .next .head) :
    ∃ t, attempt 10#7 s = .next (t, .accept) ∧ t.pv = 0#64 ∧ t.ba = 0#47 := by
  have hsync : ∀ l, 1 ≤ l → l ≤ 8 → seen s l = .sync := fun l h1 h8 => seen_eq (hs l h1 h8)
  have hclosed : decodeClosed 10 (seen s) = (0#47, 0#64, .accept) :=
    decodeClosed_of_no_one le_rfl hsync (seen_eq hh) fun k h10 hk => absurd hk (Nat.not_lt.2 h10)
  rcases attempt_cases s 10#7 (by decide) with ⟨t, hatt, hba, hpv, -⟩ | ⟨k, hk, -⟩
  · rw [show (10#7 : Index).toNat = 10 from rfl, hclosed] at hatt hba hpv
    exact ⟨t, hatt, hpv, hba⟩
  · have hstop := hk.unwritten
    have hlt : k < 10 := hk.lt
    by_cases h8 : k ≤ 8
    · rw [hs k hk.pos h8] at hstop; cases hstop
    · rw [show k = 9 by omega, hh] at hstop; cases hstop

/-- Settles O51: a failed attempt leaves the packet empty (`attempt_next_cases`), and so does the accepted one of length 10
(`attempt_ten`). -/
theorem nonzeroPacketMeansAccepted : Obligations.NonzeroPacketMeansAccepted := by
  refine ⟨fun n s t o h64 h hne => ?_, fun s hs hh => attempt_ten hs hh⟩
  obtain ⟨-, ⟨-, hba, hpv⟩ | ⟨ho, -⟩⟩ := attempt_next_cases h64 h
  · exact absurd hne (by simp [hba, hpv])
  · exact ho

end Sys2Proof.Machine
end

section
/-! PROOFS. A command that `rst` abandons before its response (R147). -/

namespace Sys2Proof.Machine

/-- Settles O9: a ready core takes the abandoned command in one step (`step_abandoned`), and the laws of `abandon` give each
field of the state it leaves, whatever the word was. -/
theorem abandonedCommandGivesNoResponse : Obligations.AbandonedCommandGivesNoResponse := by
  intro s word during rest hi hb
  refine ⟨abandon rest during s, step_abandoned hi hb, ?_⟩
  simp

end Sys2Proof.Machine
end
